-- ==== Sys2Proof/Word.lean ====
section
/-! DEFINITION. The two word types of the block: a device byte (00_scope.md R8) and a command word
(30_encoding.md R70). Decimal operands are unbounded integers (92_eei_decisions.md D2) and need no type here. -/

namespace Sys2Proof

/-- An unsigned 8-bit value; also a register address (R8, R40). -/
abbrev Byte := BitVec 8

/-- A 16-bit command word CW (R70). -/
abbrev Word := BitVec 16

end Sys2Proof
end

