-- ==== Sys2Proof/Syntax.lean ====
section
/-! DEFINITION. The command set: one constructor of `Instr` per row of spec/opcode_table.json
(30_encoding.md R82), and the closed enumeration of the eleven match modes (R74, R76). -/

namespace Sys2Proof

/-- The alarm number, 1 or 2 (10_state.md R23). -/
inductive AlarmNumber where
  | one
  | two
  deriving DecidableEq, Repr

/-- The match modes of R76, a closed enumeration as R74 asks. -/
inductive MatchMode where
  | a1EverySecond
  | a1MatchSeconds
  | a1MatchMinutes
  | a1MatchHours
  | a1MatchDate
  | a1MatchDay
  | a2MatchSeconds
  | a2MatchMinutes
  | a2MatchHours
  | a2MatchDate
  | a2MatchDay
  deriving DecidableEq, Repr

/-- A command's operation with the operands its word carries (R72, R78). All other operands come from the
operand ports (10_state.md R21). -/
inductive Instr where
  /-- BCD.ENC (R101). -/
  | bcdEnc
  /-- BCD.DEC (R102). -/
  | bcdDec
  /-- TIME.ENC (R123). -/
  | timeEnc
  /-- TIME.DEC (R124). -/
  | timeDec
  /-- TIME.GET (R126). -/
  | timeGet
  /-- TIME.SET (R125). -/
  | timeSet
  /-- ALARM1.ENC (R154). -/
  | alarm1Enc (mode : MatchMode)
  /-- ALARM2.ENC (R155). -/
  | alarm2Enc (mode : MatchMode)
  /-- ALARM1.DEC (R160). -/
  | alarm1Dec
  /-- ALARM2.DEC (R161). -/
  | alarm2Dec
  /-- ALARM1.SET (R156). -/
  | alarm1Set (mode : MatchMode)
  /-- ALARM2.SET (R157). -/
  | alarm2Set (mode : MatchMode)
  /-- TEMP.DEC (R191). -/
  | tempDec
  /-- TEMP.GET (R192). -/
  | tempGet
  deriving DecidableEq, Repr

end Sys2Proof
end

