-- ==== Sys2Proof/WellFormed.lean ====
section
/-! DEFINITION. Which instructions are well formed: an alarm operation carries a mode of its own alarm
(30_encoding.md R77: "mode values are mutually exclusive per alarm number"). -/

namespace Sys2Proof

/-- The alarm a match mode belongs to: the A1 and A2 rows of R76. -/
def MatchMode.alarm : MatchMode → AlarmNumber
  | .a1EverySecond => .one
  | .a1MatchSeconds => .one
  | .a1MatchMinutes => .one
  | .a1MatchHours => .one
  | .a1MatchDate => .one
  | .a1MatchDay => .one
  | .a2MatchSeconds => .two
  | .a2MatchMinutes => .two
  | .a2MatchHours => .two
  | .a2MatchDate => .two
  | .a2MatchDay => .two

/-- An instruction that some command word spells (R73, R77). -/
def Instr.wellFormed : Instr → Bool
  | .bcdEnc => true
  | .bcdDec => true
  | .timeEnc => true
  | .timeDec => true
  | .timeGet => true
  | .timeSet => true
  | .alarm1Enc m => m.alarm = .one
  | .alarm2Enc m => m.alarm = .two
  | .alarm1Dec => true
  | .alarm2Dec => true
  | .alarm1Set m => m.alarm = .one
  | .alarm2Set m => m.alarm = .two
  | .tempDec => true
  | .tempGet => true

end Sys2Proof
end

