-- ==== Sys2Proof/Decode.lean ====
section
/-! DEFINITION. The command decoder (30_encoding.md R73), total on every 16-bit word and rejecting by name, the
mode code table (R76), and the encoder written from the same tables (R82). -/

namespace Sys2Proof

/-! ### The mode code table (R74, R75, R76) -/

/-- ALARM_MODE_TABLE: the code of each match mode (R76; the spec's default of D8, log 14). -/
def modeCode : MatchMode → Byte
  | .a1EverySecond => 0x0F#8
  | .a1MatchSeconds => 0x0E#8
  | .a1MatchMinutes => 0x0C#8
  | .a1MatchHours => 0x08#8
  | .a1MatchDate => 0x00#8
  | .a1MatchDay => 0x10#8
  | .a2MatchSeconds => 0x8E#8
  | .a2MatchMinutes => 0x8C#8
  | .a2MatchHours => 0x88#8
  | .a2MatchDate => 0x80#8
  | .a2MatchDay => 0x90#8

/-- The rows of ALARM_MODE_TABLE in the order of R76. -/
def allModes : List MatchMode :=
  [.a1EverySecond, .a1MatchSeconds, .a1MatchMinutes, .a1MatchHours, .a1MatchDate, .a1MatchDay,
   .a2MatchSeconds, .a2MatchMinutes, .a2MatchHours, .a2MatchDate, .a2MatchDay]

/-- The mode a code stands for, none where ALARM_MODE_TABLE has no such code (R76, R77). -/
def modeOfCode (code : Byte) : Option MatchMode :=
  allModes.find? fun m => modeCode m == code

/-- `mode in ALARM_MODE_TABLE` (R73, R160). -/
def modeIsLegal (code : Byte) : Bool :=
  (modeOfCode code).isSome

/-! ### The fields of a command word (R71) -/

/-- OP = CW[15:12]. -/
def opField (w : Word) : Nat := (w.extractLsb' 12 4).toNat

/-- RSV = CW[11:9]. -/
def rsvField (w : Word) : BitVec 3 := w.extractLsb' 9 3

/-- ALM = CW[8]. -/
def almField (w : Word) : Bool := w.getLsbD 8

/-- MODE = CW[7:0]. -/
def modeField (w : Word) : Byte := w.extractLsb' 0 8

/-! ### The decoder (R73) -/

/-- The three verdicts of R73. -/
inductive Verdict where
  | operation (i : Instr)
  | illegalCommand
  | contractViolation
  deriving DecidableEq, Repr

/-- The operations outside the alarm family (R72). -/
def decodePlain : Nat → Verdict
  | 0x1 => .operation .bcdEnc
  | 0x2 => .operation .bcdDec
  | 0x3 => .operation .timeEnc
  | 0x4 => .operation .timeDec
  | 0x5 => .operation .timeGet
  | 0x6 => .operation .timeSet
  | 0xA => .operation .tempDec
  | 0xB => .operation .tempGet
  | _ => .illegalCommand

/-- ALARM.DEC: MODE must equal ALM << 7 (R73). -/
def decodeAlarmDec (alm : Bool) (mode : Byte) : Verdict :=
  if mode ≠ (if alm then 0x80#8 else 0x00#8) then .illegalCommand
  else .operation (if alm then .alarm2Dec else .alarm1Dec)

/-- ALARM.ENC and ALARM.SET: a legal mode code whose bit 7 agrees with ALM (R73, R77). -/
def decodeAlarmMode (one two : MatchMode → Instr) (alm : Bool) (mode : Byte) : Verdict :=
  match modeOfCode mode with
  | none => .contractViolation
  | some m =>
    if mode.getLsbD 7 ≠ alm then .contractViolation
    else .operation (if alm then two m else one m)

/-- The decode function of R73. -/
def decode (w : Word) : Verdict :=
  if opField w = 0x0 ∨ 0xC ≤ opField w then .illegalCommand
  else if rsvField w ≠ 0 then .illegalCommand
  else if opField w = 0x8 then decodeAlarmDec (almField w) (modeField w)
  else if opField w = 0x7 then decodeAlarmMode .alarm1Enc .alarm2Enc (almField w) (modeField w)
  else if opField w = 0x9 then decodeAlarmMode .alarm1Set .alarm2Set (almField w) (modeField w)
  else if almField w = true ∨ modeField w ≠ 0 then .illegalCommand
  else decodePlain (opField w)

/-- The instruction of a word given as a number: bit 0 of `w` is bit 0 of CW, bits from `nbits` up are 0, and a
number that does not fit the one 16-bit format spells nothing (log 22). -/
def decodeTableWord (nbits w : Nat) : Option Instr :=
  if w % 2 ^ nbits < 2 ^ 16 then
    match decode (BitVec.ofNat 16 (w % 2 ^ nbits)) with
    | .operation i => some i
    | .illegalCommand => none
    | .contractViolation => none
  else none

/-! ### The encoder (R82) -/

/-- The command word of an instruction (R82; R79 for a mode that does not belong to the alarm: it assembles as
written, and the decoder then answers CONTRACT_VIOLATION). -/
def encode : Instr → Word
  | .bcdEnc => 0x1000#16
  | .bcdDec => 0x2000#16
  | .timeEnc => 0x3000#16
  | .timeDec => 0x4000#16
  | .timeGet => 0x5000#16
  | .timeSet => 0x6000#16
  | .alarm1Enc m => 0x7000#16 ||| (modeCode m).setWidth 16
  | .alarm2Enc m => 0x7100#16 ||| (modeCode m).setWidth 16
  | .alarm1Dec => 0x8000#16
  | .alarm2Dec => 0x8180#16
  | .alarm1Set m => 0x9000#16 ||| (modeCode m).setWidth 16
  | .alarm2Set m => 0x9100#16 ||| (modeCode m).setWidth 16
  | .tempDec => 0xA000#16
  | .tempGet => 0xB000#16

/-! ### The opcode table (R82) -/

/-- The match and the mask of an instruction's row of R82. -/
def tableRow : Instr → Word × Word
  | .bcdEnc => (0x1000#16, 0xFFFF#16)
  | .bcdDec => (0x2000#16, 0xFFFF#16)
  | .timeEnc => (0x3000#16, 0xFFFF#16)
  | .timeDec => (0x4000#16, 0xFFFF#16)
  | .timeGet => (0x5000#16, 0xFFFF#16)
  | .timeSet => (0x6000#16, 0xFFFF#16)
  | .alarm1Enc _ => (0x7000#16, 0xFF80#16)
  | .alarm2Enc _ => (0x7180#16, 0xFF80#16)
  | .alarm1Dec => (0x8000#16, 0xFFFF#16)
  | .alarm2Dec => (0x8180#16, 0xFFFF#16)
  | .alarm1Set _ => (0x9000#16, 0xFF80#16)
  | .alarm2Set _ => (0x9180#16, 0xFF80#16)
  | .tempDec => (0xA000#16, 0xFFFF#16)
  | .tempGet => (0xB000#16, 0xFFFF#16)

end Sys2Proof
end

