-- ==== Sys2Proof/Config.lean ====
section
/-! DEFINITION. The parameters of 00_scope.md R7 that are fixed constants, its OPEN parameters, and the free
values of the model (20_memory.md R47, R49; 70_reset_and_hazards.md R241). ALARM_COALESCE may take two values
and stands in State (log 13); BCD_WIDE and ALARM_MODE_TABLE are defined beside the codec and the decoder. -/

namespace Sys2Proof.Config

/-- REG_ADDR_WIDTH: a register address is one byte (R7, R40). -/
abbrev regAddrWidth : Nat := 8

/-- TIME_BASE (R7). -/
abbrev timeBase : Byte := 0x00#8
/-- TIME_LEN (R7). -/
abbrev timeLen : Nat := 7
/-- A1_BASE (R7). -/
abbrev a1Base : Byte := 0x07#8
/-- A1_LEN (R7). -/
abbrev a1Len : Nat := 4
/-- A2_BASE (R7). -/
abbrev a2Base : Byte := 0x0B#8
/-- A2_LEN (R7). -/
abbrev a2Len : Nat := 3
/-- CONTROL_ADDR: out of scope, no command reaches it (R7, R44). -/
abbrev controlAddr : Byte := 0x0E#8
/-- STATUS_ADDR: out of scope, no command reaches it (R7, R44). -/
abbrev statusAddr : Byte := 0x0F#8
/-- TEMP_BASE (R7). -/
abbrev tempBase : Byte := 0x11#8
/-- TEMP_LEN (R7). -/
abbrev tempLen : Nat := 2
/-- SCRATCH_LEN: out of scope (R7, R45). -/
abbrev scratchLen : Nat := 56

/-- SCRATCH_BASE: OPEN, read by no rule (R7, 90_conflicts.md C1; log 23). -/
opaque scratchBase : Byte
/-- DEVICE_BUS_ADDR: OPEN, read by no rule (R7, D26; log 23). -/
opaque deviceBusAddr : BitVec 7
/-- BUS_CLOCK: OPEN, read by no rule (R7, D26; log 23). -/
opaque busClock : Nat
/-- ALARM_IE_STRICT: OPEN, read by no rule (R7, D29; log 23). -/
opaque alarmIeStrict : Bool

/-- Free value: byte `i` of the answer to transaction number `k` of the run, where no scripted reply gives it.
A completed read returns any bytes (R47, D14; log 6). -/
opaque readDraw : Nat → Nat → Byte

/-- Free value: whether transaction number `k` of the run completes, where no scripted reply says so (R49; log 6). -/
opaque transactionCompletes : Nat → Bool

/-- Free value: whether byte `i` of the payload of the failed write number `k` lands, where no scripted reply says
so (R49, FAILED_WRITE_EFFECT, D15; log 6, log 16). -/
opaque failedByteLands : Nat → Nat → Bool

/-- Free value: the byte the device's start image holds at an address whose start byte a run does not state
(R241, 93_implementation_defined.md I11; log 9). -/
opaque startByte : Byte → Byte

end Sys2Proof.Config
end

