-- ==== Sys2Proof/Machine/State.lean ====
section
/-! DEFINITION. The state of the machine as plain data (10_state.md R20..R30), the reasons a step can stop, and
the state at the start of a run (70_reset_and_hazards.md R240). -/

namespace Sys2Proof.Machine

/-! ### Operand ports and commands (R21, R22, R70) -/

/-- The value type of a timestamp: each field an integer with no width (R22). -/
structure Timestamp where
  year : Int
  month : Int
  day : Int
  hour : Int
  minute : Int
  second : Int
  dayOfWeek : Int
  deriving DecidableEq, Repr

/-- The port `ts` as it is presented: any field may be missing (41_time.md R123, exceptions). -/
structure TimestampPort where
  year : Option Int
  month : Option Int
  day : Option Int
  hour : Option Int
  minute : Option Int
  second : Option Int
  dayOfWeek : Option Int
  deriving DecidableEq, Repr

/-- The operand ports of a command; `none` is a port that is not supplied (R21, R212). -/
structure Ports where
  n : Option Int := none
  b : Option Byte := none
  ts : Option TimestampPort := none
  buf : Option (List Byte) := none
  seconds : Option Int := none
  minutes : Option Int := none
  hours : Option Int := none
  dayOrDate : Option Int := none
  deriving DecidableEq, Repr

/-- A command: a command word and the operand ports, which last this one command (R21, R70). -/
structure Command where
  word : Word
  ports : Ports
  deriving DecidableEq, Repr

/-- The names of the ports, the info of INVALID_ARGUMENT (R210). -/
inductive PortName where
  | n
  | b
  | ts
  | buf
  | seconds
  | minutes
  | hours
  | dayOrDate
  deriving DecidableEq, Repr

/-! ### Results and outcomes (R23, R30, R210) -/

/-- What ALARM.DEC returns beside `legal`: the mode stays a code, since it may be outside the table
(R23, R160, R161). -/
structure AlarmSpec where
  alarm : AlarmNumber
  mode : Byte
  seconds : Option Int
  minutes : Int
  hours : Int
  dayOrDate : Int
  deriving DecidableEq, Repr

/-- A TemperatureReading, the exact rational `quarters / 4` degrees Celsius (R30, R190; log 20). -/
structure Temperature where
  quarters : Int
  deriving DecidableEq, Repr

/-- The result types of R30. -/
inductive Result where
  | byte (v : Byte)
  | nat (v : Nat)
  | block (base : Byte) (bytes : List Byte)
  | timestamp (t : Timestamp)
  | alarm (spec : AlarmSpec) (legal : Bool)
  | temperature (t : Temperature)
  | unit
  deriving DecidableEq, Repr

/-- The exception outcomes with the info each records (R210). -/
inductive Exc where
  | illegalCommand (word : Word)
  | invalidArgument (port : PortName)
  | contractViolation (word : Word)
  | transportFailure (index : Nat) (addr : Byte)
  deriving DecidableEq, Repr

/-- How a command ended (R12, R27, R210). -/
inductive CommandOutcome where
  | ok (result : Result)
  | exception (e : Exc)
  deriving DecidableEq, Repr

/-- An entry of the fault log: the fault and the index of its command (R27, R211; log 25). -/
structure FaultRecord where
  cmdIndex : Nat
  fault : Exc
  deriving DecidableEq, Repr

/-! ### Transactions (R27, R41) -/

/-- The two transport operations (R41). -/
inductive TransactionKind where
  | write
  | writeThenRead
  deriving DecidableEq, Repr

/-- `payload_or_len` of a history record (R27). -/
inductive PayloadOrLen where
  | payload (bytes : List Byte)
  | length (n : Nat)
  deriving DecidableEq, Repr

/-- The status of a transaction (R27). -/
inductive TransactionStatus where
  | ok
  | failure
  deriving DecidableEq, Repr

/-- A record of the transaction history (R27); `readBytes` is empty for a write and for a failed read (log 11). -/
structure TransactionRecord where
  cmdIndex : Nat
  kind : TransactionKind
  addr : Byte
  payloadOrLen : PayloadOrLen
  status : TransactionStatus
  readBytes : List Byte
  deriving DecidableEq, Repr

/-- A scripted reply of the transport to one transaction: an input of the step (R47, R49; log 6). `bytes` are
the draw of a completed read; `landed` says which payload bytes of a failed write landed. -/
inductive Reply where
  | completes (bytes : List Byte)
  | fails (landed : List Bool)
  deriving DecidableEq, Repr

/-- The transport reference the driver holds (R20, R40): none at all (R242), one to a device whose reads are
unconstrained draws, or the simulator oracle, whose reads return the register image (R47). -/
inductive Transport where
  | absent
  | device
  | simulator
  deriving DecidableEq, Repr

/-! ### The register image (R28, R40, R47) -/

/-- The device register image: (address, byte) pairs in rising address order. An address that is not listed
holds no stated value (R241; log 9). -/
abbrev Memory := List Host.Cell

/-- What an address that is not listed reads as: no stated value, since no source gives a start image (R241). -/
def Memory.unlisted : Option Byte := none

/-- The canonical form: addresses strictly rising and inside the one-byte address space (R40). No listed entry
equals what an unlisted address reads as, because that is no byte. -/
abbrev Memory.wf (m : Memory) : Prop :=
  m.Pairwise (fun x y => x.1 < y.1) ∧ ∀ c ∈ m, c.1 < 2 ^ Config.regAddrWidth

/-! ### The state -/

/-- Everything the spec gives the machine (INVENTORY.md, State). -/
structure State where
  /-- The commands the caller has presented and the block has not begun, oldest first (R24, R70; log 1). -/
  pending : List Command
  /-- The command index (R24). -/
  cmdIndex : Nat
  /-- The transaction history, in issue order (R27). -/
  hist : List TransactionRecord
  /-- One entry per command, in command order (R27). -/
  outcomes : List CommandOutcome
  /-- The fault log, never cleared (R27, R211). -/
  faults : List FaultRecord
  /-- The register image: what the block's writes left, over the start image (R28, R47, R48; log 10). -/
  image : Memory
  /-- The transport reference (R20, R242). -/
  transport : Transport
  /-- The transport's scripted replies to coming transactions, oldest first (R47, R49; log 6). -/
  replies : List Reply
  /-- The model's own counter of transactions, to which Config's free values are applied (log 6). -/
  drawIndex : Nat
  /-- The parameter ALARM_COALESCE (R7, R158; log 13). -/
  coalesce : Bool
  deriving DecidableEq, Repr

/-- Reasons a step stops with a fault. There is none: "No operation is fatal to the process; every failure is a
reported result to the immediate caller" (R211), and the next command is accepted after every outcome (R217).
The block's own faults are entries of `State.faults` (log 3). -/
inductive Fault where
  deriving DecidableEq, Repr

/-- Reasons a step is refused. -/
inductive Refusal where
  /-- Raised by `exec` for a row of the opcode table that has no meaning yet; no row is left so. Safe: nothing
  can be proved of a run through it. -/
  | notModelled (mnemonic : String)
  deriving DecidableEq, Repr

/-- The start of a run: index 0 and empty lists (R240), a register image that states nothing (R241), and a
transport supplied, as R242 asks before the first command (log 5). -/
def State.reset : State where
  pending := []
  cmdIndex := 0
  hist := []
  outcomes := []
  faults := []
  image := []
  transport := .device
  replies := []
  drawIndex := 0
  coalesce := false

end Sys2Proof.Machine
end

