-- ==== Sys2Proof/Machine/Ops.lean ====
section
/-! DEFINITION. The shared operations: the register image, the two transport transactions, the operand ports
of the command at hand, and how a command ends, an exception outcome among them. -/

namespace Sys2Proof.Machine

/-! ### The register image (20_memory.md R40, R43, R48, R49) -/

/-- The byte the image lists at an address. -/
def Memory.read : Memory → Byte → Option Byte
  | [], _ => Memory.unlisted
  | (k, v) :: m, a => if k = a.toNat then some v else Memory.read m a

/-- One byte written, keeping the canonical form. -/
def Memory.write : Memory → Byte → Byte → Memory
  | [], a, v => [(a.toNat, v)]
  | (k, x) :: m, a, v =>
    if a.toNat < k then (a.toNat, v) :: (k, x) :: m
    else if a.toNat = k then (k, v) :: m
    else (k, x) :: Memory.write m a v

/-- Byte `i` of a list goes to address `a + i` (R43; log 18 for the top of the address space). -/
def Memory.writeBytes : Memory → Byte → List Byte → Memory
  | m, _, [] => m
  | m, a, b :: bs => Memory.writeBytes (m.write a b) (a + 1#8) bs

/-- A failed write: byte `i` goes to address `a + i` where `landed` says so, and nowhere otherwise (R49, D15). -/
def Memory.writeLanded : Memory → Byte → List Byte → List Bool → Memory
  | m, a, b :: bs, l :: ls => Memory.writeLanded (if l then m.write a b else m) (a + 1#8) bs ls
  | m, _, _, _ => m

/-! ### How the transport answers the next transaction (R47, R49, R242) -/

/-- The scripted reply to the next transaction; a transport that is absent replies nothing (R242; log 12). -/
def State.scripted (s : State) : Option Reply :=
  match s.transport with
  | .absent => none
  | .device => s.replies.head?
  | .simulator => s.replies.head?

/-- Whether the next transaction completes: as scripted; with no transport it fails (R242, D15); not scripted, it
completes under the simulator oracle (log 8) and is a free value otherwise (R49). -/
def State.completes (s : State) : Bool :=
  match s.scripted, s.transport with
  | some (.completes _), _ => true
  | some (.fails _), _ => false
  | none, .absent => false
  | none, .simulator => true
  | none, .device => Config.transactionCompletes s.drawIndex

/-- Byte `i`, from address `a`, of what the next transaction reads if it completes. Under the simulator oracle it is the
image's byte, or the free start byte where none is listed; otherwise it is the scripted byte, or a free value
where the script gives none (R47, D14; log 7, log 9). -/
def State.drawnByte (s : State) (a : Byte) (i : Nat) : Byte :=
  match s.transport, s.scripted with
  | .simulator, _ => (s.image.read a).getD (Config.startByte a)
  | _, some (.completes bytes) => bytes[i]?.getD (Config.readDraw s.drawIndex i)
  | _, _ => Config.readDraw s.drawIndex i

/-- The `n` bytes the next transaction reads from `a` on if it completes: one draw (R47, R54). -/
def State.drawn (s : State) (a : Byte) (n : Nat) : List Byte :=
  (List.range n).map fun i => s.drawnByte (a + BitVec.ofNat 8 i) i

/-- Whether byte `i` of the next write's payload lands although the write fails: as scripted, or a free value
(R49, D15; log 7). -/
def State.lands (s : State) (i : Nat) : Bool :=
  match s.scripted with
  | some (.fails landed) => landed[i]?.getD (Config.failedByteLands s.drawIndex i)
  | _ => Config.failedByteLands s.drawIndex i

/-- The status of the next transaction (R27). -/
def State.nextStatus (s : State) : TransactionStatus :=
  if s.completes then .ok else .failure

/-! ### The two transactions (R41, R42, 00_scope.md R10) -/

/-- The bytes a transaction sends: the one-byte register address first, then any payload (R41, R42). -/
def TransactionRecord.sent (r : TransactionRecord) : List Byte :=
  match r.payloadOrLen with
  | .payload bytes => r.addr :: bytes
  | .length _ => [r.addr]

/-- The bookkeeping of one transaction: its record joins the history, its scripted reply is used up, and the
counter of the free values moves on (R27, R50). -/
def State.logTransaction (r : TransactionRecord) (s : State) : State :=
  { s with
    hist := s.hist ++ [r]
    replies := if s.transport = .absent then s.replies else s.replies.tail
    drawIndex := s.drawIndex + 1 }

/-- `MemWrite(a, length bytes, bytes)`: one write transaction (R10, R41, R48, R49). -/
def memWrite (a : Byte) (bytes : List Byte) (s : State) : State × TransactionStatus :=
  let r : TransactionRecord :=
    { cmdIndex := s.cmdIndex, kind := .write, addr := a, payloadOrLen := .payload bytes,
      status := s.nextStatus, readBytes := [] }
  let image :=
    if s.completes then s.image.writeBytes a bytes
    else s.image.writeLanded a bytes ((List.range bytes.length).map s.lands)
  ({ s.logTransaction r with image := image }, s.nextStatus)

/-- `MemRead(a, n)`: one write-then-read transaction, with the bytes read, none if it fails (R10, R41, R47, R49). -/
def memRead (a : Byte) (n : Nat) (s : State) : State × Option (List Byte) :=
  let bytes := if s.completes then some (s.drawn a n) else none
  let r : TransactionRecord :=
    { cmdIndex := s.cmdIndex, kind := .writeThenRead, addr := a, payloadOrLen := .length n,
      status := s.nextStatus, readBytes := bytes.getD [] }
  (s.logTransaction r, bytes)

/-! ### The command at hand (10_state.md R21, R24) -/

/-- The next command, if the caller has presented one. -/
def State.fetch (s : State) : Option Command := s.pending.head?

/-- The operand ports of the command at hand; no command supplies no port. -/
def State.ports (s : State) : Ports :=
  match s.pending with
  | [] => {}
  | c :: _ => c.ports

/-- A command word put in the place of the next command, whose ports stay (none where none was presented). -/
def State.presentWord (s : State) (w : Word) : State :=
  { s with pending := { word := w, ports := s.ports } :: s.pending.tail }

/-! ### How a command ends (R24, R27, 60_exceptions.md R210, R211, R217) -/

/-- The outcome is recorded, the command index advances by 1 whatever the outcome, and the next command of the
caller is up (R24, R27). -/
def State.endCommand (o : CommandOutcome) (s : State) : State :=
  { s with
    outcomes := s.outcomes ++ [o]
    cmdIndex := s.cmdIndex + 1
    pending := s.pending.tail }

/-- `return v` (R10). -/
def succeed (v : Result) (s : State) : State := s.endCommand (.ok v)

/-- The numeric code of an exception outcome (R210). -/
def Exc.code : Exc → Nat
  | .illegalCommand _ => 0x1
  | .invalidArgument _ => 0x2
  | .contractViolation _ => 0x3
  | .transportFailure _ _ => 0x4

/-- The outcome class: a fault is true, a reported error is false (R211). -/
def Exc.isFault : Exc → Bool
  | .illegalCommand _ => true
  | .invalidArgument _ => false
  | .contractViolation _ => true
  | .transportFailure _ _ => false

/-- `raise E(info)`: taking an exception outcome. No state is saved, no mode changes and control goes nowhere: the
outcome is recorded, a fault in the fault log too, and the next command is accepted (R211, R217). There is no
return from it (R218). -/
def raise (e : Exc) (s : State) : State :=
  State.endCommand (.exception e)
    { s with faults := s.faults ++ (if e.isFault then [{ cmdIndex := s.cmdIndex, fault := e }] else []) }

/-! ### The shapes shared by the commands -/

/-- A command's operands, or INVALID_ARGUMENT with the first port at fault, before any transaction (R212, R216). -/
def withOperands {α : Type} (operands : Except PortName α) (s : State) (k : α → State) : State :=
  match operands with
  | .error p => raise (.invalidArgument p) s
  | .ok v => k v

/-- One write transaction of a whole block, with the exception it ends in, if any (41_time.md R125, R158). -/
def writeOnce (a : Byte) (bytes : List Byte) (s : State) : State × Option Exc :=
  match memWrite a bytes s with
  | (t, .ok) => (t, none)
  | (t, .failure) => (t, some (.transportFailure 0 a))

/-- One single-register write a byte, in ascending address order, stopping at the first that fails; `i` numbers
the transaction within the command (42_alarm.md R156, R157). -/
def writeEach : Nat → Byte → List Byte → State → State × Option Exc
  | _, _, [], s => (s, none)
  | i, a, b :: bs, s =>
    match memWrite a [b] s with
    | (t, .ok) => writeEach (i + 1) (a + 1#8) bs t
    | (t, .failure) => (t, some (.transportFailure i a))

/-- The writes of ALARM.SET: one a register, or one for the block with ALARM_COALESCE (R158). -/
def writeBlock (a : Byte) (bytes : List Byte) (s : State) : State × Option Exc :=
  if s.coalesce then writeOnce a bytes s else writeEach 0 a bytes s

/-- The end of a SET: `return unit`, or TRANSPORT_FAILURE (R214). -/
def endSet : State × Option Exc → State
  | (t, none) => succeed .unit t
  | (t, some e) => raise e t

/-- A GET: one read, then the decoder; a failed read ends the command and is never decoded (R57, R214). -/
def readThen (a : Byte) (n : Nat) (dec : List Byte → Result) (s : State) : State :=
  match memRead a n s with
  | (t, some bytes) => succeed (dec bytes) t
  | (t, none) => raise (.transportFailure 0 a) t

/-- An alarm command whose mode belongs to the other alarm is a CONTRACT_VIOLATION, before any operand is read
(R213, R216). A decoded command never is one (R73; log 19). -/
def withPairing (alarm : AlarmNumber) (mode : MatchMode) (i : Instr) (s : State) (k : State) : State :=
  if mode.alarm = alarm then k else raise (.contractViolation (encode i)) s

end Sys2Proof.Machine
end

