-- ==== Sys2Proof/Machine/Operands.lean ====
section
/-! DEFINITION. The operand ports as each command requires them (10_state.md R21, 60_exceptions.md R212), and the
bit fields and extensions of 00_scope.md R8 and R9. -/

namespace Sys2Proof.Machine

/-! ### Bytes and fields (R8, R9) -/

/-- `trunc8(v)` is v mod 256 as a byte. -/
def trunc8 (v : Nat) : Byte := BitVec.ofNat 8 v

/-- `b[7:4]`. -/
def highNibble (b : Byte) : Nat := b.toNat / 16

/-- `b[3:0]`. -/
def lowNibble (b : Byte) : Nat := b.toNat % 16

/-- `b[i]` as a Nat, 0 or 1. -/
def bitOf (b : Byte) (i : Nat) : Nat := (b.getLsbD i).toNat

/-- `sext_8(b)`. -/
def sext8 (b : Byte) : Int := if b.toNat < 128 then (b.toNat : Int) else (b.toNat : Int) - 256

/-- Byte `i` of a buffer whose length has been checked. -/
def byteAt (bytes : List Byte) (i : Nat) : Byte := bytes.getD i 0#8

/-! ### Required ports (R212) -/

/-- A port that must be supplied. -/
def required {α : Type} (p : PortName) : Option α → Except PortName α
  | none => .error p
  | some v => .ok v

/-- The port `n` of BCD.ENC. -/
def decimalOperand (p : Ports) : Except PortName Int := required .n p.n

/-- The port `b` of BCD.DEC. -/
def byteOperand (p : Ports) : Except PortName Byte := required .b p.b

/-- A timestamp whose seven fields are all supplied. -/
def TimestampPort.complete (t : TimestampPort) : Option Timestamp := do
  let year ← t.year
  let month ← t.month
  let day ← t.day
  let hour ← t.hour
  let minute ← t.minute
  let second ← t.second
  let dayOfWeek ← t.dayOfWeek
  pure { year, month, day, hour, minute, second, dayOfWeek }

/-- A timestamp with every field supplied, on the port `ts`. -/
def Timestamp.toPort (t : Timestamp) : TimestampPort where
  year := some t.year
  month := some t.month
  day := some t.day
  hour := some t.hour
  minute := some t.minute
  second := some t.second
  dayOfWeek := some t.dayOfWeek

/-- The port `ts`; a field is part of the port, so a missing field is reported by the port's name (41_time.md R123,
60_exceptions.md R210). -/
def timestampOperand (p : Ports) : Except PortName Timestamp := required .ts (p.ts.bind TimestampPort.complete)

/-- The port `buf`, of exactly `len` bytes (R212, D18). -/
def bufferOperand (len : Nat) (p : Ports) : Except PortName (List Byte) :=
  match p.buf with
  | none => .error .buf
  | some bytes => if bytes.length = len then .ok bytes else .error .buf

/-- The decimal fields of an alarm command; `seconds` is 0 where it is absent (42_alarm.md R154). -/
structure AlarmFields where
  seconds : Int
  minutes : Int
  hours : Int
  dayOrDate : Int
  deriving DecidableEq, Repr

/-- The field ports in the order R154 and R155 list them. A missing `seconds` is no error for alarm 1, and alarm 2
does not use the value (R155, D10). -/
def alarmOperands (p : Ports) : Except PortName AlarmFields :=
  match p.minutes, p.hours, p.dayOrDate with
  | none, _, _ => .error .minutes
  | some _, none, _ => .error .hours
  | some _, some _, none => .error .dayOrDate
  | some minutes, some hours, some dayOrDate =>
    .ok { seconds := p.seconds.getD 0, minutes := minutes, hours := hours, dayOrDate := dayOrDate }

end Sys2Proof.Machine
end

