-- ==== Sys2Proof/Machine/Flags.lean ====
section
/-! DEFINITION. The block has no flags of its own (10_state.md R25). The three kinds of flag bit are data bits of the
bytes the codecs build and parse: the century bit, the don't-care bits and the DY/DT bit. -/

namespace Sys2Proof.Machine

/-! ### The century bit (41_time.md R121) -/

/-- The century bit of a year: 1 exactly when `year ≥ 2000`. -/
def centuryOf (year : Int) : Bool := decide (2000 ≤ year)

/-- The first year of a century. -/
def centuryBase (century : Bool) : Int := if century then 2000 else 1900

/-- `century << 7`. -/
def centuryFlag (century : Bool) : Byte := if century then 0x80#8 else 0x00#8

/-! ### The alarm flag bits (42_alarm.md R152, 30_encoding.md R75) -/

/-- A don't-care bit at its place: mask 0x80 (D9). -/
def dontCare (b : Bool) : Byte := if b then 0x80#8 else 0x00#8

/-- The DY/DT bit at its place: mask 0x40 (D9). -/
def dayNotDate (b : Bool) : Byte := if b then 0x40#8 else 0x00#8

/-- SEC_FLAGS(mode), alarm 1 only. -/
def secFlags (mode : Byte) : Byte := dontCare (mode.getLsbD 0)

/-- MIN_FLAGS(mode). -/
def minFlags (mode : Byte) : Byte := dontCare (mode.getLsbD 1)

/-- HR_FLAGS(mode). -/
def hrFlags (mode : Byte) : Byte := dontCare (mode.getLsbD 2)

/-- DD_FLAGS(mode). -/
def ddFlags (mode : Byte) : Byte := dontCare (mode.getLsbD 3) ||| dayNotDate (mode.getLsbD 4)

/-- The mode flags an alarm block shows, as a mode code: S, M, H, D, DY at bits 0 to 4 and A2 at bit 7
(R75, R160, R161). -/
def modeOfFlags (s m h d dy a2 : Bool) : Byte :=
  BitVec.ofNat 8 (s.toNat + 2 * m.toNat + 4 * h.toNat + 8 * d.toNat + 16 * dy.toNat + 128 * a2.toNat)

end Sys2Proof.Machine
end

