-- ==== Sys2Proof/Machine/Bcd.lean ====
section
/-! DEFINITION. The BCD codec family (40_bcd.md). -/

namespace Sys2Proof.Machine

/-- BCD_WIDE: a decimal operand reduced to a byte, by default `n mod 256`, Euclidean (R101, D4; log 15). -/
def bcdWide (n : Int) : Nat := (n % 256).toNat

/-- BCD_ENC under any narrowing of its operand (D4: BCD_WIDE is a parameter). -/
def bcdEncWith (wide : Int → Nat) (n : Int) : Byte :=
  trunc8 (wide n / 10 * 16 + wide n % 10)

/-- BCD_ENC (R101). -/
def bcdEnc (n : Int) : Byte := bcdEncWith bcdWide n

/-- BCD_DEC (R102): no check that the byte is valid BCD. -/
def bcdDec (b : Byte) : Nat := highNibble b * 10 + lowNibble b

/-- A byte is valid BCD when both nibbles are in 0..9 (R100). The codec never checks it. -/
def validBcd (b : Byte) : Bool := decide (highNibble b ≤ 9) && decide (lowNibble b ≤ 9)

/-- BCD.ENC (R101). -/
def execBcdEnc (s : State) : Host.Outcome State Fault Refusal :=
  .next (withOperands (decimalOperand s.ports) s fun n => succeed (.byte (bcdEnc n)) s)

/-- BCD.DEC (R102). -/
def execBcdDec (s : State) : Host.Outcome State Fault Refusal :=
  .next (withOperands (byteOperand s.ports) s fun b => succeed (.nat (bcdDec b)) s)

end Sys2Proof.Machine
end

