-- ==== Sys2Proof/Machine/Alarm.lean ====
section
/-! DEFINITION. The alarm codec family (42_alarm.md). -/

namespace Sys2Proof.Machine

/-! ### The blocks (R150, R151, R152) -/

/-- The four bytes of the alarm-1 block: each field BCD-encoded, then its flags ORed in (R151, R154). -/
def alarm1Bytes (mode : Byte) (f : AlarmFields) : List Byte :=
  [ bcdEnc f.seconds ||| secFlags mode,
    bcdEnc f.minutes ||| minFlags mode,
    bcdEnc f.hours ||| hrFlags mode,
    bcdEnc f.dayOrDate ||| ddFlags mode ]

/-- The three bytes of the alarm-2 block; a seconds value is not used (R155, D10). -/
def alarm2Bytes (mode : Byte) (f : AlarmFields) : List Byte :=
  [ bcdEnc f.minutes ||| minFlags mode,
    bcdEnc f.hours ||| hrFlags mode,
    bcdEnc f.dayOrDate ||| ddFlags mode ]

/-- The value bits of a seconds, minutes or hours byte: bits 6:0 (R150). -/
def fieldValue (b : Byte) : Nat := bcdDec (b &&& 0x7F#8)

/-- The value bits of a day/date byte: bits 5:0 (R150). -/
def dayOrDateValue (b : Byte) : Nat := bcdDec (b &&& 0x3F#8)

/-- The mode code an alarm-1 block shows (R160). -/
def alarm1Mode (bytes : List Byte) : Byte :=
  modeOfFlags ((byteAt bytes 0).getLsbD 7) ((byteAt bytes 1).getLsbD 7) ((byteAt bytes 2).getLsbD 7)
    ((byteAt bytes 3).getLsbD 7) ((byteAt bytes 3).getLsbD 6) false

/-- The mode code an alarm-2 block shows (R161). -/
def alarm2Mode (bytes : List Byte) : Byte :=
  modeOfFlags false ((byteAt bytes 0).getLsbD 7) ((byteAt bytes 1).getLsbD 7) ((byteAt bytes 2).getLsbD 7)
    ((byteAt bytes 2).getLsbD 6) true

/-- The alarm specification of a four-byte block (R160). -/
def alarm1OfBytes (bytes : List Byte) : AlarmSpec where
  alarm := .one
  mode := alarm1Mode bytes
  seconds := some (fieldValue (byteAt bytes 0) : Int)
  minutes := fieldValue (byteAt bytes 1)
  hours := fieldValue (byteAt bytes 2)
  dayOrDate := dayOrDateValue (byteAt bytes 3)

/-- The alarm specification of a three-byte block, its seconds absent (R161). -/
def alarm2OfBytes (bytes : List Byte) : AlarmSpec where
  alarm := .two
  mode := alarm2Mode bytes
  seconds := none
  minutes := fieldValue (byteAt bytes 0)
  hours := fieldValue (byteAt bytes 1)
  dayOrDate := dayOrDateValue (byteAt bytes 2)

/-! ### Encode (R154, R155) -/

/-- ALARM1.ENC (R154). -/
def execAlarm1Enc (mode : MatchMode) (s : State) : Host.Outcome State Fault Refusal :=
  .next <| withPairing .one mode (.alarm1Enc mode) s <|
    withOperands (alarmOperands s.ports) s fun f => succeed (.block Config.a1Base (alarm1Bytes (modeCode mode) f)) s

/-- ALARM2.ENC (R155). -/
def execAlarm2Enc (mode : MatchMode) (s : State) : Host.Outcome State Fault Refusal :=
  .next <| withPairing .two mode (.alarm2Enc mode) s <|
    withOperands (alarmOperands s.ports) s fun f => succeed (.block Config.a2Base (alarm2Bytes (modeCode mode) f)) s

/-! ### Decode (R160, R161) -/

/-- ALARM1.DEC (R160): an illegal flag pattern is returned with `legal = false`. -/
def execAlarm1Dec (s : State) : Host.Outcome State Fault Refusal :=
  .next (withOperands (bufferOperand Config.a1Len s.ports) s fun bytes =>
    succeed (.alarm (alarm1OfBytes bytes) (modeIsLegal (alarm1Mode bytes))) s)

/-- ALARM2.DEC (R161). -/
def execAlarm2Dec (s : State) : Host.Outcome State Fault Refusal :=
  .next (withOperands (bufferOperand Config.a2Len s.ports) s fun bytes =>
    succeed (.alarm (alarm2OfBytes bytes) (modeIsLegal (alarm2Mode bytes))) s)

/-! ### Set (R156, R157, R158) -/

/-- ALARM1.SET (R156). -/
def execAlarm1Set (mode : MatchMode) (s : State) : Host.Outcome State Fault Refusal :=
  .next <| withPairing .one mode (.alarm1Set mode) s <|
    withOperands (alarmOperands s.ports) s fun f =>
      endSet (writeBlock Config.a1Base (alarm1Bytes (modeCode mode) f) s)

/-- ALARM2.SET (R157). -/
def execAlarm2Set (mode : MatchMode) (s : State) : Host.Outcome State Fault Refusal :=
  .next <| withPairing .two mode (.alarm2Set mode) s <|
    withOperands (alarmOperands s.ports) s fun f =>
      endSet (writeBlock Config.a2Base (alarm2Bytes (modeCode mode) f) s)

end Sys2Proof.Machine
end

