-- ==== Sys2Proof/Machine/Temperature.lean ====
section
/-! DEFINITION. The temperature decoder family (43_temperature.md). -/

namespace Sys2Proof.Machine

/-- `b[7:6]`, the fraction in quarter degrees (R190). -/
def quarterField (b : Byte) : Nat := b.toNat / 64

/-- The reading of a register pair, in quarter degrees: `4 * sext_8(byte 0) + byte 1 [7:6]` (R190). -/
def temperatureOfBytes (bytes : List Byte) : Temperature where
  quarters := 4 * sext8 (byteAt bytes 0) + quarterField (byteAt bytes 1)

/-- The reading in degrees Celsius, an exact rational (R190, D13). -/
def Temperature.celsius (t : Temperature) : Rat := (t.quarters : Rat) / 4

/-- TEMP.DEC (R191). -/
def execTempDec (s : State) : Host.Outcome State Fault Refusal :=
  .next (withOperands (bufferOperand Config.tempLen s.ports) s fun bytes =>
    succeed (.temperature (temperatureOfBytes bytes)) s)

/-- TEMP.GET (R192): one write-then-read of 2 bytes, decoded only if it completes. -/
def execTempGet (s : State) : Host.Outcome State Fault Refusal :=
  .next (readThen Config.tempBase Config.tempLen (fun bytes => .temperature (temperatureOfBytes bytes)) s)

end Sys2Proof.Machine
end

