-- ==== Sys2Proof/Machine/Time.lean ====
section
/-! DEFINITION. The time codec family (41_time.md). -/

namespace Sys2Proof.Machine

/-- The stored day of week: the operand reduced mod 7, plus 1 (R122, D6). -/
def storedDayOfWeek (d : Int) : Int := d % 7 + 1

/-- The seven bytes of the time block (R120, R123). -/
def timeBytes (t : Timestamp) : List Byte :=
  [ bcdEnc t.second,
    bcdEnc t.minute,
    bcdEnc t.hour,
    bcdEnc (storedDayOfWeek t.dayOfWeek),
    bcdEnc t.day,
    bcdEnc t.month ||| centuryFlag (centuryOf t.year),
    bcdEnc (t.year - centuryBase (centuryOf t.year)) ]

/-- The timestamp of a seven-byte time block (R120, R124): nothing is validated, only the month byte is masked. -/
def timeOfBytes (bytes : List Byte) : Timestamp where
  second := bcdDec (byteAt bytes 0)
  minute := bcdDec (byteAt bytes 1)
  hour := bcdDec (byteAt bytes 2)
  dayOfWeek := (bcdDec (byteAt bytes 3) : Int) - 1
  day := bcdDec (byteAt bytes 4)
  month := bcdDec (byteAt bytes 5 &&& 0x1F#8)
  year := centuryBase ((byteAt bytes 5).getLsbD 7) + bcdDec (byteAt bytes 6)

/-- TIME.ENC (R123). -/
def execTimeEnc (s : State) : Host.Outcome State Fault Refusal :=
  .next (withOperands (timestampOperand s.ports) s fun t => succeed (.block Config.timeBase (timeBytes t)) s)

/-- TIME.DEC (R124). -/
def execTimeDec (s : State) : Host.Outcome State Fault Refusal :=
  .next (withOperands (bufferOperand Config.timeLen s.ports) s fun bytes => succeed (.timestamp (timeOfBytes bytes)) s)

/-- TIME.SET (R125): one write transaction of the address and 7 bytes. -/
def execTimeSet (s : State) : Host.Outcome State Fault Refusal :=
  .next (withOperands (timestampOperand s.ports) s fun t => endSet (writeOnce Config.timeBase (timeBytes t) s))

/-- TIME.GET (R126): one write-then-read of 7 bytes, decoded only if it completes. -/
def execTimeGet (s : State) : Host.Outcome State Fault Refusal :=
  .next (readThen Config.timeBase Config.timeLen (fun bytes => .timestamp (timeOfBytes bytes)) s)

end Sys2Proof.Machine
end

