-- ==== Sys2Proof/Machine/Dispatch.lean ====
section
/-! DEFINITION. The dispatch: one arm per row of the opcode table (30_encoding.md R82). -/

namespace Sys2Proof.Machine

def exec (i : Instr) (s : State) : Host.Outcome State Fault Refusal :=
  match i with
  | .bcdEnc => Sys2Proof.Machine.execBcdEnc s
  | .bcdDec => Sys2Proof.Machine.execBcdDec s
  | .timeEnc => Sys2Proof.Machine.execTimeEnc s
  | .timeDec => Sys2Proof.Machine.execTimeDec s
  | .timeGet => Sys2Proof.Machine.execTimeGet s
  | .timeSet => Sys2Proof.Machine.execTimeSet s
  | .alarm1Enc mode => Sys2Proof.Machine.execAlarm1Enc mode s
  | .alarm2Enc mode => Sys2Proof.Machine.execAlarm2Enc mode s
  | .alarm1Dec => Sys2Proof.Machine.execAlarm1Dec s
  | .alarm2Dec => Sys2Proof.Machine.execAlarm2Dec s
  | .alarm1Set mode => Sys2Proof.Machine.execAlarm1Set mode s
  | .alarm2Set mode => Sys2Proof.Machine.execAlarm2Set mode s
  | .tempDec => Sys2Proof.Machine.execTempDec s
  | .tempGet => Sys2Proof.Machine.execTempGet s

end Sys2Proof.Machine
end

