-- ==== Sys2Proof/Machine/Step.lean ====
section
/-! DEFINITION. One step of the machine: one command from its decoding to its outcome (00_scope.md R6, 10_state.md R24). -/

namespace Sys2Proof.Machine

/-- One command. The decoder runs before any operand is examined (30_encoding.md R73, 60_exceptions.md R216); a word
it rejects ends in its exception outcome; with no command presented the block waits (log 2). -/
def step (s : State) : Host.Outcome State Fault Refusal :=
  match s.fetch with
  | none => .next s
  | some c =>
    match decode c.word with
    | .operation i => exec i s
    | .illegalCommand => .next (raise (.illegalCommand c.word) s)
    | .contractViolation => .next (raise (.contractViolation c.word) s)

/-- The state whose next step runs the command word `w`: the caller's presenting of it (log 1). -/
def State.withFetchWord (s : State) (nbits w : Nat) : State :=
  s.presentWord (BitVec.ofNat 16 (w % 2 ^ nbits))

end Sys2Proof.Machine
end

