-- ==== Sys2Proof/Machine/Assembler.lean ====
section
/-! DEFINITION. The assembler form of commands (30_encoding.md R79) and its pseudo-instructions (R80), as
structured lines and as text. It only builds commands for the caller; no step reads it (log 21, log 26). -/

namespace Sys2Proof.Machine

/-! ### Structured lines -/

/-- A line of R79, or a pseudo-instruction of R80. A mode is the byte that assembles to MODE, legal or not. -/
inductive AsmLine where
  | bcdEnc (n : Int)
  | bcdDec (b : Byte)
  | timeEnc (t : Timestamp)
  | timeDec (buf : List Byte)
  | timeGet
  | timeSet (t : Timestamp)
  | alarm1Enc (mode : Byte) (seconds minutes hours dayOrDate : Int)
  | alarm2Enc (mode : Byte) (minutes hours dayOrDate : Int)
  | alarmDec (alarm : AlarmNumber) (buf : List Byte)
  | alarm1Set (mode : Byte) (seconds minutes hours dayOrDate : Int)
  | alarm2Set (mode : Byte) (minutes hours dayOrDate : Int)
  | tempDec (buf : List Byte)
  | tempGet
  /-- `ALARM.ENC 1, mode, minutes, hours, dayOrDate` (R80). -/
  | alarm1EncNoSeconds (mode : Byte) (minutes hours dayOrDate : Int)
  /-- `ALARM.SET 1, mode, minutes, hours, dayOrDate`: R80 says "four operands after `mode`", which is R79's full form; the
  model's choice is the form of ALARM.ENC, with three (R80; DESIGN CHOICE, log 26). -/
  | alarm1SetNoSeconds (mode : Byte) (minutes hours dayOrDate : Int)
  /-- `TIME.RD` (R80). -/
  | timeRd
  /-- `TIME.WR …` (R80). -/
  | timeWr (t : Timestamp)
  /-- `TEMP.RD` (R80). -/
  | tempRd
  deriving DecidableEq, Repr

/-- A pseudo-instruction's expansion; a line of R79 is its own (R80). -/
def AsmLine.expand : AsmLine → AsmLine
  | .alarm1EncNoSeconds mode minutes hours dayOrDate => .alarm1Enc mode 0 minutes hours dayOrDate
  | .alarm1SetNoSeconds mode minutes hours dayOrDate => .alarm1Set mode 0 minutes hours dayOrDate
  | .timeRd => .timeGet
  | .timeWr t => .timeSet t
  | .tempRd => .tempGet
  | line => line

/-- The ALM bit at its place in the word: `ALM = alarm - 1` (R79). -/
def almWord : AlarmNumber → Word
  | .one => 0x0000#16
  | .two => 0x0100#16

/-- The word of an alarm operation with its MODE byte as written (R71, R79). -/
def alarmWord (op : Word) (alarm : AlarmNumber) (mode : Byte) : Word :=
  op ||| almWord alarm ||| mode.setWidth 16

/-- `ALARM.DEC alarm` assembles MODE as `(alarm - 1) << 7` (R79). -/
def alarmDecMode : AlarmNumber → Byte
  | .one => 0x00#8
  | .two => 0x80#8

/-- The command of a line (R79). A pseudo-instruction's command is written out from R80's own words. -/
def AsmLine.assemble (line : AsmLine) : Command :=
  match line with
  | .bcdEnc n => { word := encode .bcdEnc, ports := { n := some n } }
  | .bcdDec b => { word := encode .bcdDec, ports := { b := some b } }
  | .timeEnc t => { word := encode .timeEnc, ports := { ts := some t.toPort } }
  | .timeDec buf => { word := encode .timeDec, ports := { buf := some buf } }
  | .timeGet => { word := encode .timeGet, ports := {} }
  | .timeSet t => { word := encode .timeSet, ports := { ts := some t.toPort } }
  | .alarm1Enc mode s m h d =>
    { word := alarmWord 0x7000#16 .one mode,
      ports := { seconds := some s, minutes := some m, hours := some h, dayOrDate := some d } }
  | .alarm2Enc mode m h d =>
    { word := alarmWord 0x7000#16 .two mode, ports := { minutes := some m, hours := some h, dayOrDate := some d } }
  | .alarmDec alarm buf =>
    { word := alarmWord 0x8000#16 alarm (alarmDecMode alarm), ports := { buf := some buf } }
  | .alarm1Set mode s m h d =>
    { word := alarmWord 0x9000#16 .one mode,
      ports := { seconds := some s, minutes := some m, hours := some h, dayOrDate := some d } }
  | .alarm2Set mode m h d =>
    { word := alarmWord 0x9000#16 .two mode, ports := { minutes := some m, hours := some h, dayOrDate := some d } }
  | .tempDec buf => { word := encode .tempDec, ports := { buf := some buf } }
  | .tempGet => { word := encode .tempGet, ports := {} }
  | .alarm1EncNoSeconds mode m h d =>
    { word := alarmWord 0x7000#16 .one mode,
      ports := { seconds := some 0, minutes := some m, hours := some h, dayOrDate := some d } }
  | .alarm1SetNoSeconds mode m h d =>
    { word := alarmWord 0x9000#16 .one mode,
      ports := { seconds := some 0, minutes := some m, hours := some h, dayOrDate := some d } }
  | .timeRd => { word := encode .timeGet, ports := {} }
  | .timeWr t => { word := encode .timeSet, ports := { ts := some t.toPort } }
  | .tempRd => { word := encode .tempGet, ports := {} }

/-! ### Text (R79: a mnemonic, then the operands separated by commas; a semicolon starts a comment) -/

/-- A blank between the parts of a line. -/
def isBlank (c : Char) : Bool := c == ' ' || c == '\t' || c == '\r'

/-- A line without its comment. -/
def stripComment (line : List Char) : List Char := line.takeWhile (· != ';')

/-- Text without blanks at either end. -/
def trimBlanks (text : List Char) : List Char :=
  ((text.dropWhile isBlank).reverse.dropWhile isBlank).reverse

/-- The parts of a text between its commas. -/
def splitCommas : List Char → List (List Char)
  | [] => [[]]
  | c :: rest =>
    if c == ',' then [] :: splitCommas rest
    else match splitCommas rest with
      | [] => [[c]]
      | part :: parts => (c :: part) :: parts

/-- The operands of a line: none where nothing follows the mnemonic. -/
def operandTokens (text : List Char) : List (List Char) :=
  if (trimBlanks text).isEmpty then [] else (splitCommas text).map trimBlanks

/-- The digits of R8's literals by value, in the two cases of the letters; a base has the first `base` of them. -/
def digitRows : List (List Char) := ["0123456789ABCDEF".toList, "0123456789abcdef".toList]

/-- The value of a digit of a base: its place in a row. -/
def digitIn (base : Nat) (digit : Char) : Option Nat :=
  digitRows.findSome? fun row => (row.take base).idxOf? digit

/-- The value of a non-empty row of digits, most significant first. -/
def numeral (base : Nat) : List Char → Option Nat
  | [] => none
  | digits => digits.foldlM (fun value digit => (digitIn base digit).map (base * value + ·)) 0

/-- A byte literal: at most 255. -/
def byteLiteral (v : Option Nat) : Option Int :=
  v.bind fun k => if k < 256 then some (k : Int) else none

/-- A numeric operand: a decimal literal, which may be negative, or a byte literal (R79; binary after R8 and the
example of 43_temperature.md R191). -/
def numberToken : List Char → Option Int
  | '0' :: 'x' :: digits => byteLiteral (numeral 16 digits)
  | '0' :: 'b' :: digits => byteLiteral (numeral 2 digits)
  | '-' :: digits => (numeral 10 digits).map fun k => -(k : Int)
  | digits => (numeral 10 digits).map fun k => (k : Int)

/-- A byte operand: a numeric operand in 0..255. -/
def byteToken (text : List Char) : Option Byte :=
  (numberToken text).bind fun v => if 0 ≤ v ∧ v < 256 then some (BitVec.ofInt 8 v) else none

/-- The mode mnemonics of R76. -/
def modeName : MatchMode → String
  | .a1EverySecond => "A1.EVERY_SECOND"
  | .a1MatchSeconds => "A1.MATCH_SECONDS"
  | .a1MatchMinutes => "A1.MATCH_MINUTES"
  | .a1MatchHours => "A1.MATCH_HOURS"
  | .a1MatchDate => "A1.MATCH_DATE"
  | .a1MatchDay => "A1.MATCH_DAY"
  | .a2MatchSeconds => "A2.MATCH_SECONDS"
  | .a2MatchMinutes => "A2.MATCH_MINUTES"
  | .a2MatchHours => "A2.MATCH_HOURS"
  | .a2MatchDate => "A2.MATCH_DATE"
  | .a2MatchDay => "A2.MATCH_DAY"

/-- A mode operand: a mnemonic of R76 or a byte literal, which assembles as written (R79). -/
def modeToken (text : List Char) : Option Byte :=
  match allModes.find? fun m => (modeName m).toList == text with
  | some m => some (modeCode m)
  | none => byteToken text

/-- An alarm number operand, 1 or 2 (R79). -/
def alarmToken (text : List Char) : Option AlarmNumber :=
  match numberToken text with
  | some 1 => some .one
  | some 2 => some .two
  | _ => none

/-- Every element of a list that a partial reading accepts as a whole. -/
def readAll {α : Type} (read : List Char → Option α) : List (List Char) → Option (List α)
  | [] => some []
  | t :: ts =>
    match read t, readAll read ts with
    | some v, some vs => some (v :: vs)
    | _, _ => none

/-- Seven decimal operands in the order of R79. -/
def timestampTokens (operands : List (List Char)) : Option Timestamp :=
  match readAll numberToken operands with
  | some [year, month, day, hour, minute, second, dayOfWeek] =>
    some { year, month, day, hour, minute, second, dayOfWeek }
  | _ => none

/-- The operands of an alarm line after its mnemonic, for the two alarms and the short form of R80. An alarm-1 line with
three operands after the mode is the short form, of ALARM.SET as of ALARM.ENC; one with four is R79's full form. For
ALARM.SET that is the model's choice, since R80 says "with four operands after `mode`" (DESIGN CHOICE, log 26). -/
def alarmLine (full1 : Byte → Int → Int → Int → Int → AsmLine) (short1 two : Byte → Int → Int → Int → AsmLine) :
    List (List Char) → Option AsmLine
  | alarm :: mode :: fields =>
    match alarmToken alarm, modeToken mode, readAll numberToken fields with
    | some .one, some m, some [s, mi, h, d] => some (full1 m s mi h d)
    | some .one, some m, some [mi, h, d] => some (short1 m mi h d)
    | some .two, some m, some [mi, h, d] => some (two m mi h d)
    | _, _, _ => none
  | _ => none

/-- A line from its mnemonic and its operands (R79, R80). -/
def lineOfTokens (mnemonic : List Char) (operands : List (List Char)) : Option AsmLine :=
  if mnemonic = "BCD.ENC".toList then
    match readAll numberToken operands with
    | some [n] => some (.bcdEnc n)
    | _ => none
  else if mnemonic = "BCD.DEC".toList then
    match readAll byteToken operands with
    | some [b] => some (.bcdDec b)
    | _ => none
  else if mnemonic = "TIME.ENC".toList then (timestampTokens operands).map .timeEnc
  else if mnemonic = "TIME.DEC".toList then (readAll byteToken operands).map .timeDec
  else if mnemonic = "TIME.GET".toList then (if operands.isEmpty then some .timeGet else none)
  else if mnemonic = "TIME.SET".toList then (timestampTokens operands).map .timeSet
  else if mnemonic = "ALARM.ENC".toList then alarmLine .alarm1Enc .alarm1EncNoSeconds .alarm2Enc operands
  else if mnemonic = "ALARM.SET".toList then alarmLine .alarm1Set .alarm1SetNoSeconds .alarm2Set operands
  else if mnemonic = "ALARM.DEC".toList then
    match operands with
    | [] => none
    | alarm :: bytes =>
      match alarmToken alarm, readAll byteToken bytes with
      | some a, some buf => some (.alarmDec a buf)
      | _, _ => none
  else if mnemonic = "TEMP.DEC".toList then (readAll byteToken operands).map .tempDec
  else if mnemonic = "TEMP.GET".toList then (if operands.isEmpty then some .tempGet else none)
  else if mnemonic = "TIME.RD".toList then (if operands.isEmpty then some .timeRd else none)
  else if mnemonic = "TIME.WR".toList then (timestampTokens operands).map .timeWr
  else if mnemonic = "TEMP.RD".toList then (if operands.isEmpty then some .tempRd else none)
  else none

/-- What a line of text is. -/
inductive AsmText where
  | nothing
  | line (l : AsmLine)
  | malformed
  deriving DecidableEq, Repr

/-- A line of text read by R79: nothing where it is blank or only a comment. -/
def readLine (text : List Char) : AsmText :=
  match trimBlanks (stripComment text) with
  | [] => .nothing
  | body =>
    let mnemonic := body.takeWhile fun c => !isBlank c
    match lineOfTokens mnemonic (operandTokens (body.drop mnemonic.length)) with
    | some l => .line l
    | none => .malformed

/-- The commands of a text of several lines, one command a line; none where a line is malformed. -/
def assembleText : List (List Char) → Option (List Command)
  | [] => some []
  | text :: rest =>
    match readLine text, assembleText rest with
    | .nothing, some commands => some commands
    | .line l, some commands => some (l.assemble :: commands)
    | _, _ => none

end Sys2Proof.Machine
end

