-- ==== Sys2Proof/Safety.lean ====
section
/-! DEFINITION. What holds of every state of a run: the machine's invariant, and the premise "no fault recorded" that a claim
about a run takes (60_exceptions.md R211). Then the terms in which the statements say what a command leaves. -/

namespace Sys2Proof.Machine

/-- The premise of R211: no fault is recorded. -/
def State.noFaultRecorded (s : State) : Prop := s.faults = []

/-! ### Results (10_state.md R30) -/

/-- A field value of an alarm specification or a timestamp: what BCD.DEC can return (R30, R102). -/
def inBcdRange (v : Int) : Prop := 0 ≤ v ∧ v ≤ 165

/-- The timestamps TIME.DEC can return (R124). -/
def Timestamp.inDecodedRange (t : Timestamp) : Prop :=
  inBcdRange t.second ∧ inBcdRange t.minute ∧ inBcdRange t.hour ∧ inBcdRange t.day ∧
  (-1 ≤ t.dayOfWeek ∧ t.dayOfWeek ≤ 164) ∧ (0 ≤ t.month ∧ t.month ≤ 25) ∧ (1900 ≤ t.year ∧ t.year ≤ 2165)

/-- The alarm specifications ALARM.DEC can return: seconds are absent exactly for alarm 2, and bit 7 of the mode is
the alarm-2 bit (R160, R161). -/
def AlarmSpec.inDecodedRange (a : AlarmSpec) : Prop :=
  inBcdRange a.minutes ∧ inBcdRange a.hours ∧ inBcdRange a.dayOrDate ∧
  (match a.alarm, a.seconds with
    | .one, some v => inBcdRange v ∧ a.mode.getLsbD 7 = false
    | .two, none => a.mode.getLsbD 7 = true
    | _, _ => False)

/-- The result types of R30 with their ranges. -/
def Result.inRange : Result → Prop
  | .byte _ => True
  | .nat v => v ≤ 165
  | .block base bytes =>
    (base = 0x00#8 ∧ bytes.length = 7) ∨ (base = 0x07#8 ∧ bytes.length = 4) ∨ (base = 0x0B#8 ∧ bytes.length = 3)
  | .timestamp t => t.inDecodedRange
  | .alarm spec legal => spec.inDecodedRange ∧ (legal = true ↔ ∃ m : MatchMode, modeCode m = spec.mode)
  | .temperature t => -512 ≤ t.quarters ∧ t.quarters ≤ 511
  | .unit => True

/-- An outcome whose result, if it has one, is in its range. -/
def CommandOutcome.inRange : CommandOutcome → Prop
  | .ok r => r.inRange
  | .exception _ => True

/-! ### The fault log (60_exceptions.md R211) -/

/-- The fault log that a list of outcomes gives rise to, the first of them being that of command `k`; the index in an entry
is read from program P5 (log 25). -/
def faultsOf (k : Nat) : List CommandOutcome → List FaultRecord
  | [] => []
  | .ok _ :: rest => faultsOf (k + 1) rest
  | .exception e :: rest =>
    if e.isFault then { cmdIndex := k, fault := e } :: faultsOf (k + 1) rest else faultsOf (k + 1) rest

/-! ### Transactions (20_memory.md R44, R45, R53) -/

/-- The transactions of R53, with what a record of each may hold: nothing read by a write or a failed read, and all
the bytes asked for by a completed read. -/
def TransactionRecord.inAccessTable (r : TransactionRecord) : Prop :=
  match r.kind, r.payloadOrLen with
  | .write, .payload bytes =>
    r.readBytes = [] ∧
    ((r.addr = 0x00#8 ∧ bytes.length = 7) ∨ (0x07#8 ≤ r.addr ∧ r.addr ≤ 0x0D#8 ∧ bytes.length = 1) ∨
     (r.addr = 0x07#8 ∧ bytes.length = 4) ∨ (r.addr = 0x0B#8 ∧ bytes.length = 3))
  | .writeThenRead, .length n =>
    ((r.addr = 0x00#8 ∧ n = 7) ∨ (r.addr = 0x11#8 ∧ n = 2)) ∧
    r.readBytes.length = (match r.status with | .ok => n | .failure => 0)
  | _, _ => False

/-! ### The invariant -/

/-- What every step keeps: the register image is in canonical form; one outcome a command (R24, R27), each with a
result in its range (R30); the fault log is that of the outcomes (R211); every recorded transaction is one of R53, of an
earlier command, and the history is in command order (R50). -/
structure State.Inv (s : State) : Prop where
  image_wf : s.image.wf
  one_outcome_a_command : s.outcomes.length = s.cmdIndex
  results_in_range : ∀ o ∈ s.outcomes, o.inRange
  fault_log : s.faults = faultsOf 0 s.outcomes
  transactions_in_table : ∀ r ∈ s.hist, r.inAccessTable
  transactions_of_earlier_commands : ∀ r ∈ s.hist, r.cmdIndex < s.cmdIndex
  history_in_command_order : s.hist.Pairwise fun x y => x.cmdIndex ≤ y.cmdIndex

/-! ### What a command leaves, in the terms of the statements -/

/-- `s` after a command that ends with outcome `o` and changes nothing else: the outcome is recorded, the index is one
further, and the caller's next command is up (R24, R27). -/
def State.ended (s : State) (o : CommandOutcome) : State :=
  { s with outcomes := s.outcomes ++ [o], cmdIndex := s.cmdIndex + 1, pending := s.pending.tail }

/-- `s` with the free inputs of `k` transactions used up: a scripted reply each, if there is a transport that has them,
and a step of the counter each. -/
def State.inputsUsed (s : State) (k : Nat) : State :=
  { s with
    replies := if s.transport = .absent then s.replies else s.replies.drop k
    drawIndex := s.drawIndex + k }

/-- Whether transaction number `k` of the command at hand, counted from 0, completes. -/
def State.completesAt (s : State) (k : Nat) : Bool := (s.inputsUsed k).completes

/-- The history record of a write (R27). -/
def writeRecord (cmdIndex : Nat) (a : Byte) (bytes : List Byte) (status : TransactionStatus) : TransactionRecord :=
  { cmdIndex := cmdIndex, kind := .write, addr := a, payloadOrLen := .payload bytes, status := status, readBytes := [] }

/-- The history record of a write-then-read (R27). -/
def readRecord (cmdIndex : Nat) (a : Byte) (n : Nat) (status : TransactionStatus) (bytes : List Byte) :
    TransactionRecord :=
  { cmdIndex := cmdIndex, kind := .writeThenRead, addr := a, payloadOrLen := .length n, status := status, readBytes := bytes }

/-- The image `m'` holds `bytes` from `base` on and is `m` at every other address (R43, R48). -/
def Memory.HoldsBlock (m m' : Memory) (base : Byte) (bytes : List Byte) : Prop :=
  (∀ i, i < bytes.length → m'.read (base + BitVec.ofNat 8 i) = bytes[i]?) ∧
  (∀ a, (∀ i, i < bytes.length → a ≠ base + BitVec.ofNat 8 i) → m'.read a = m.read a)

/-- Each address of the block at `base` holds in `m'` its old or its new byte, and `m'` is `m` at every other
address (R49). -/
def Memory.OldOrNew (m m' : Memory) (base : Byte) (bytes : List Byte) : Prop :=
  (∀ i, i < bytes.length →
    m'.read (base + BitVec.ofNat 8 i) = m.read (base + BitVec.ofNat 8 i) ∨
    m'.read (base + BitVec.ofNat 8 i) = bytes[i]?) ∧
  (∀ a, (∀ i, i < bytes.length → a ≠ base + BitVec.ofNat 8 i) → m'.read a = m.read a)

/-- What a SET with one write transaction of a whole block leaves (R125, R158): the block and `unit`, or
TRANSPORT_FAILURE with each target register old or new. Every other part of the state is that of `ended`. -/
def SetByOneWrite (s : State) (base : Byte) (bytes : List Byte) (out : Host.Outcome State Fault Refusal) : Prop :=
  (s.completes = true → ∃ image,
    out = .next { (s.ended (.ok .unit)).inputsUsed 1 with
      image := image
      hist := s.hist ++ [writeRecord s.cmdIndex base bytes .ok] } ∧
    s.image.HoldsBlock image base bytes) ∧
  (s.completes = false → ∃ image,
    out = .next { (s.ended (.exception (.transportFailure 0 base))).inputsUsed 1 with
      image := image
      hist := s.hist ++ [writeRecord s.cmdIndex base bytes .failure] } ∧
    s.image.OldOrNew image base bytes)

/-- The records of single-register writes of `bytes` in ascending address order, all completed. -/
def registerWrites (cmdIndex : Nat) (base : Byte) (bytes : List Byte) : List TransactionRecord :=
  (List.range bytes.length).map fun i =>
    writeRecord cmdIndex (base + BitVec.ofNat 8 i) [bytes.getD i 0#8] .ok

/-- What a SET with one write a register leaves (R156, R157): the block and `unit` if every write completes; if number
`k` is the first that fails, TRANSPORT_FAILURE with its number and address, the `k` registers before it written, its own
register old or new, and no later write issued. Every other part of the state is that of `ended`. -/
def SetByRegisterWrites (s : State) (base : Byte) (bytes : List Byte) (out : Host.Outcome State Fault Refusal) : Prop :=
  ((∀ j, j < bytes.length → s.completesAt j = true) → ∃ image,
    out = .next { (s.ended (.ok .unit)).inputsUsed bytes.length with
      image := image
      hist := s.hist ++ registerWrites s.cmdIndex base bytes } ∧
    s.image.HoldsBlock image base bytes) ∧
  (∀ k, k < bytes.length → (∀ j, j < k → s.completesAt j = true) → s.completesAt k = false → ∃ between image,
    out = .next
      { (s.ended (.exception (.transportFailure k (base + BitVec.ofNat 8 k)))).inputsUsed (k + 1) with
        image := image
        hist := s.hist ++ registerWrites s.cmdIndex base (bytes.take k) ++
          [writeRecord s.cmdIndex (base + BitVec.ofNat 8 k) [bytes.getD k 0#8] .failure] } ∧
    s.image.HoldsBlock between base (bytes.take k) ∧
    between.OldOrNew image (base + BitVec.ofNat 8 k) [bytes.getD k 0#8])

/-- What a GET leaves (R57, R126, R192): the decoded draw, or TRANSPORT_FAILURE with nothing read and nothing decoded. The
register image and every other part of the state are those of `ended`. -/
def GetByOneRead (s : State) (base : Byte) (n : Nat) (dec : List Byte → Result)
    (out : Host.Outcome State Fault Refusal) : Prop :=
  (s.completes = true →
    (s.drawn base n).length = n ∧
    out = .next { (s.ended (.ok (dec (s.drawn base n)))).inputsUsed 1 with
      hist := s.hist ++ [readRecord s.cmdIndex base n .ok (s.drawn base n)] }) ∧
  (s.completes = false →
    out = .next { (s.ended (.exception (.transportFailure 0 base))).inputsUsed 1 with
      hist := s.hist ++ [readRecord s.cmdIndex base n .failure []] })

/-- A command ends in INVALID_ARGUMENT for the port `p`, with no transaction and nothing else changed (R212, R217). -/
def EndsInvalidArgument (s : State) (p : PortName) (out : Host.Outcome State Fault Refusal) : Prop :=
  out = .next (s.ended (.exception (.invalidArgument p)))

/-- INVALID_ARGUMENT of an alarm command, ports in the order minutes, hours, dayOrDate (R154, R155, R216). -/
def AlarmPortsChecked (s : State) (out : Host.Outcome State Fault Refusal) : Prop :=
  (s.ports.minutes = none → EndsInvalidArgument s .minutes out) ∧
  (s.ports.minutes ≠ none → s.ports.hours = none → EndsInvalidArgument s .hours out) ∧
  (s.ports.minutes ≠ none → s.ports.hours ≠ none → s.ports.dayOrDate = none → EndsInvalidArgument s .dayOrDate out)

/-- INVALID_ARGUMENT of a command with a timestamp: `ts` is missing or lacks a field (R123, R125). -/
def TimestampChecked (s : State) (out : Host.Outcome State Fault Refusal) : Prop :=
  (s.ports.ts = none → EndsInvalidArgument s .ts out) ∧
  (∀ p : TimestampPort, s.ports.ts = some p →
    (p.year = none ∨ p.month = none ∨ p.day = none ∨ p.hour = none ∨ p.minute = none ∨ p.second = none ∨
      p.dayOfWeek = none) →
    EndsInvalidArgument s .ts out)

/-- INVALID_ARGUMENT of a command with a buffer of `len` bytes: `buf` is missing or has another length (R212). -/
def BufferChecked (len : Nat) (s : State) (out : Host.Outcome State Fault Refusal) : Prop :=
  (s.ports.buf = none → EndsInvalidArgument s .buf out) ∧
  (∀ bytes, s.ports.buf = some bytes → bytes.length ≠ len → EndsInvalidArgument s .buf out)

/-- A command that ends as a fault: recorded in `outcomes` and in `faults`, nothing else changed (R211, R217). -/
def State.endedByFault (s : State) (e : Exc) : State :=
  { s.ended (.exception e) with faults := s.faults ++ [{ cmdIndex := s.cmdIndex, fault := e }] }

end Sys2Proof.Machine
end

