-- ==== Sys2Proof/Certificates/Slice0/Obligations.lean ====
section
/-! DEFINITION. The statements for the provers, one `def Obligations.<Name> : Prop` each. The terms in which they say what
a command leaves (`ended`, `inputsUsed`, `HoldsBlock`, ...) stand in Sys2Proof/Safety.lean. -/

open Sys2Proof Sys2Proof.Machine

/-! ### Decoding and encoding (30_encoding.md) -/

/-- R82: every well-formed instruction's word decodes to it, with every mode its encoding admits. -/
def Obligations.DecodeOfEncode : Prop :=
  ∀ i : Instr, i.wellFormed = true → decode (encode i) = .operation i

/-- R73, R82, the other way: a word that decodes to an instruction is that instruction's word, so each operation has one
word, and the instruction is well formed. -/
def Obligations.EncodeOfDecode : Prop :=
  ∀ (w : Word) (i : Instr), decode w = .operation i → encode i = w ∧ i.wellFormed = true

/-- R215: the words that raise ILLEGAL_COMMAND, by the arithmetic of R71's fields. -/
def Obligations.IllegalWordsAreThoseListed : Prop :=
  ∀ w : Word,
    decode w = .illegalCommand ↔
      (w.toNat / 4096 = 0x0 ∨ 0xC ≤ w.toNat / 4096) ∨
      w.toNat / 512 % 8 ≠ 0 ∨
      (w.toNat / 4096 ∉ [0x7, 0x8, 0x9] ∧ (w.toNat / 256 % 2 ≠ 0 ∨ w.toNat % 256 ≠ 0)) ∨
      (w.toNat / 4096 = 0x8 ∧ w.toNat % 256 ≠ w.toNat / 256 % 2 * 128)

/-- R213: the words that raise CONTRACT_VIOLATION. -/
def Obligations.ContractWordsAreThoseListed : Prop :=
  ∀ w : Word,
    decode w = .contractViolation ↔
      (w.toNat / 4096 = 0x7 ∨ w.toNat / 4096 = 0x9) ∧ w.toNat / 512 % 8 = 0 ∧
      (w.toNat % 256 ∉ [0x0F, 0x0E, 0x0C, 0x08, 0x00, 0x10, 0x8E, 0x8C, 0x88, 0x80, 0x90] ∨
        w.toNat / 128 % 2 ≠ w.toNat / 256 % 2)

/-- R82, V-DECODE and V-ALARM of 95_test_vectors.md: a few words. -/
def Obligations.SampleWordsDecode : Prop :=
  decode 0x1000#16 = .operation .bcdEnc ∧ decode 0x5000#16 = .operation .timeGet ∧
  decode 0x9008#16 = .operation (.alarm1Set .a1MatchHours) ∧ decode 0x9190#16 = .operation (.alarm2Set .a2MatchDay) ∧
  decode 0x718E#16 = .operation (.alarm2Enc .a2MatchSeconds) ∧ decode 0xB000#16 = .operation .tempGet ∧
  decode 0x708C#16 = .contractViolation ∧ decode 0x718F#16 = .contractViolation ∧
  decode 0x1200#16 = .illegalCommand ∧ decode 0x8100#16 = .illegalCommand

/-- R75, R76: the flag bits of every mode's code: bits 6:5 clear, bit 7 exactly for alarm 2, bit 0 clear for alarm 2, and
no two modes share a code. -/
def Obligations.ModeCodesKeepTheirShape : Prop :=
  (∀ m : MatchMode, (modeCode m).toNat / 32 % 4 = 0 ∧ ((modeCode m).getLsbD 7 = true ↔ m.alarm = .two) ∧
    (m.alarm = .two → (modeCode m).getLsbD 0 = false)) ∧
  (∀ m m' : MatchMode, modeCode m = modeCode m' → m = m') ∧
  (∀ c : Byte, modeIsLegal c = true ↔ ∃ m : MatchMode, modeCode m = c)

/-! ### A step (10_state.md R24, 60_exceptions.md R211, R217) -/

/-- A step runs the decoded instruction: nothing is added around `exec`. -/
def Obligations.StepRunsTheDecodedCommand : Prop :=
  ∀ (s : State) (c : Command) (rest : List Command) (i : Instr),
    s.pending = c :: rest → decode c.word = .operation i → step s = exec i s

/-- The same from an instruction's own word: a command presented as the word of a well-formed instruction runs it, with
the ports presented. -/
def Obligations.StepRunsTheEncodedInstruction : Prop :=
  ∀ (s : State) (i : Instr) (p : Ports) (rest : List Command),
    i.wellFormed = true → s.pending = { word := encode i, ports := p } :: rest →
    step s = exec i s ∧ s.ports = p

/-- R215 with R217: a word with an illegal encoding ends as ILLEGAL_COMMAND with its own word as info, whatever the ports, and
leaves no trace but in `outcomes` and `faults`. The command index in the entry of `faults` is read from P5 (DEDUCED,
log 25). -/
def Obligations.IllegalWordIsRecordedAndPassed : Prop :=
  ∀ (s : State) (c : Command) (rest : List Command),
    s.pending = c :: rest → decode c.word = .illegalCommand →
    step s = .next (s.endedByFault (.illegalCommand c.word))

/-- R213 with R217: the same of CONTRACT_VIOLATION; it outranks a missing port, since no port is looked at (the index in
the entry of `faults`: DEDUCED, log 25). -/
def Obligations.ContractViolationIsRecordedAndPassed : Prop :=
  ∀ (s : State) (c : Command) (rest : List Command),
    s.pending = c :: rest → decode c.word = .contractViolation →
    step s = .next (s.endedByFault (.contractViolation c.word))

/-- R210, R211: the numeric codes, and which outcomes are faults. -/
def Obligations.ExceptionCodesAndClasses : Prop :=
  ∀ (w : Word) (p : PortName) (k : Nat) (a : Byte),
    (Exc.illegalCommand w).code = 0x1 ∧ (Exc.invalidArgument p).code = 0x2 ∧
    (Exc.contractViolation w).code = 0x3 ∧ (Exc.transportFailure k a).code = 0x4 ∧
    (Exc.illegalCommand w).isFault = true ∧ (Exc.invalidArgument p).isFault = false ∧
    (Exc.contractViolation w).isFault = true ∧ (Exc.transportFailure k a).isFault = false

/-- The model's own choice (log 19): an alarm command whose mode belongs to the other alarm, which no word decodes to,
ends as CONTRACT_VIOLATION with the word it would assemble to, before any port is read. -/
def Obligations.MismatchedModeIsContractViolation : Prop :=
  ∀ (s : State) (m : MatchMode),
    (m.alarm = .two → exec (.alarm1Enc m) s = .next (s.endedByFault (.contractViolation (0x7000#16 ||| (modeCode m).setWidth 16))) ∧
      exec (.alarm1Set m) s = .next (s.endedByFault (.contractViolation (0x9000#16 ||| (modeCode m).setWidth 16)))) ∧
    (m.alarm = .one → exec (.alarm2Enc m) s = .next (s.endedByFault (.contractViolation (0x7100#16 ||| (modeCode m).setWidth 16))) ∧
      exec (.alarm2Set m) s = .next (s.endedByFault (.contractViolation (0x9100#16 ||| (modeCode m).setWidth 16))))

/-- The model's own choice (log 2): with no command presented the block waits. -/
def Obligations.NothingPresentedNothingChanges : Prop :=
  ∀ s : State, s.pending = [] → step s = .next s

/-! ### The BCD codec (40_bcd.md) -/

/-- R101 under the default BCD_WIDE: the word, the result, INVALID_ARGUMENT, and the corner cases. -/
def Obligations.BcdEncPacksTwoDigits : Prop :=
  encode .bcdEnc = 0x1000#16 ∧
  (∀ (s : State) (n : Int), s.ports.n = some n → exec .bcdEnc s = .next (s.ended (.ok (.byte (bcdEnc n))))) ∧
  (∀ s : State, s.ports.n = none → EndsInvalidArgument s .n (exec .bcdEnc s)) ∧
  (∀ n : Int, (bcdEnc n).toNat = ((n % 256).toNat / 10 * 16 + (n % 256).toNat % 10) % 256) ∧
  (∀ n : Int, 0 ≤ n → n ≤ 99 →
    validBcd (bcdEnc n) = true ∧ ((bcdEnc n).toNat / 16 : Int) = n / 10 ∧ ((bcdEnc n).toNat % 16 : Int) = n % 10) ∧
  (∀ n : Int, 100 ≤ n → n ≤ 159 → 0xA ≤ (bcdEnc n).toNat / 16 ∧ validBcd (bcdEnc n) = false ∧
    ((bcdEnc n).toNat : Int) = n / 10 * 16 + n % 10) ∧
  (∀ n : Int, 160 ≤ n → n ≤ 255 → ((bcdEnc n).toNat : Int) = n / 10 * 16 + n % 10 - 256) ∧
  (∀ n : Int, bcdEnc n = bcdEnc (n % 256)) ∧
  bcdEnc 59 = 0x59#8 ∧ bcdEnc 100 = 0xA0#8 ∧ bcdEnc 160 = 0x00#8 ∧ bcdEnc 255 = 0x95#8 ∧ bcdEnc (-1) = 0x95#8 ∧
  bcdEnc 256 = 0x00#8

/-- R102: the word, the result, INVALID_ARGUMENT, and the corner cases. -/
def Obligations.BcdDecWeighsTwoNibbles : Prop :=
  encode .bcdDec = 0x2000#16 ∧
  (∀ (s : State) (b : Byte), s.ports.b = some b →
    exec .bcdDec s = .next (s.ended (.ok (.nat (b.toNat / 16 * 10 + b.toNat % 16))))) ∧
  (∀ s : State, s.ports.b = none → EndsInvalidArgument s .b (exec .bcdDec s)) ∧
  (∀ b : Byte, bcdDec b = b.toNat / 16 * 10 + b.toNat % 16 ∧ bcdDec b ≤ 165) ∧
  bcdDec 0x00#8 = 0 ∧ bcdDec 0x99#8 = 99 ∧ bcdDec 0x0A#8 = 10 ∧ bcdDec 0x1F#8 = 25 ∧ bcdDec 0x5A#8 = 60 ∧
  bcdDec 0xA0#8 = 100 ∧ bcdDec 0xFF#8 = 165 ∧ bcdDec 0x47#8 = 47

/-- R103: the five BCD laws. -/
def Obligations.BcdRoundTripLaws : Prop :=
  (∀ n : Int, 0 ≤ n → n ≤ 159 → (bcdDec (bcdEnc n) : Int) = n) ∧
  (∀ n : Int, 160 ≤ n → n ≤ 255 → (bcdDec (bcdEnc n) : Int) = n - 160) ∧
  (∀ b : Byte, bcdEnc (bcdDec b : Int) = b ↔ b.toNat % 16 ≤ 9) ∧
  (∀ n m : Int, 0 ≤ n → n ≤ 159 → 0 ≤ m → m ≤ 159 → bcdEnc n = bcdEnc m → n = m) ∧
  (∀ hi lo : Nat, hi < 16 → lo < 16 → bcdDec (BitVec.ofNat 8 (hi * 16 + lo)) = hi * 10 + lo) ∧
  (∀ n : Int, 0 ≤ n → n ≤ 159 → ((bcdEnc n).toNat / 16 : Int) = n / 10 ∧ ((bcdEnc n).toNat % 16 : Int) = n % 10)

/-- D4: on operands in 0..255 the encoder is the same under every narrowing that leaves them alone. -/
def Obligations.BcdEncNeedsNoNarrowingInRange : Prop :=
  ∀ wide : Int → Nat, (∀ n : Int, 0 ≤ n → n ≤ 255 → (wide n : Int) = n) →
    ∀ n : Int, 0 ≤ n → n ≤ 255 → bcdEncWith wide n = bcdEnc n

/-! ### The time codec (41_time.md) -/

/-- R123: the word, the seven bytes, INVALID_ARGUMENT, and the corner cases ("a month of 80 or more" up to 159: from 160 on
R101's wrap starts again at 0x00, log 17). -/
def Obligations.TimeEncBuildsTheBlock : Prop :=
  encode .timeEnc = 0x3000#16 ∧
  (∀ (s : State) (t : Timestamp), s.ports.ts = some t.toPort →
    exec .timeEnc s = .next (s.ended (.ok (.block 0x00#8 (timeBytes t))))) ∧
  (∀ s : State, TimestampChecked s (exec .timeEnc s)) ∧
  (∀ t : Timestamp, timeBytes t =
    [bcdEnc t.second, bcdEnc t.minute, bcdEnc t.hour, bcdEnc (t.dayOfWeek % 7 + 1), bcdEnc t.day,
     bcdEnc t.month ||| (if 2000 ≤ t.year then 0x80#8 else 0x00#8),
     bcdEnc (if 2000 ≤ t.year then t.year - 2000 else t.year - 1900)]) ∧
  (∀ t : Timestamp, t.year = 1999 → byteAt (timeBytes t) 6 = 0x99#8) ∧
  (∀ t : Timestamp, t.year = 2000 → byteAt (timeBytes t) 6 = 0x00#8) ∧
  (∀ t : Timestamp, t.dayOfWeek = -1 ∨ t.dayOfWeek = 6 ∨ t.dayOfWeek = 13 → byteAt (timeBytes t) 3 = 0x07#8) ∧
  (∀ t : Timestamp, t.dayOfWeek = 7 → byteAt (timeBytes t) 3 = 0x01#8) ∧
  (∀ t : Timestamp, 80 ≤ t.month → t.month ≤ 159 → (bcdEnc t.month).getLsbD 7 = true) ∧
  (∀ t : Timestamp, t.month = 80 → t.year = 1950 → byteAt (timeBytes t) 5 = 0x80#8) ∧
  timeBytes ⟨2024, 2, 29, 13, 45, 30, 4⟩ = [0x30#8, 0x45#8, 0x13#8, 0x05#8, 0x29#8, 0x82#8, 0x24#8]

/-- R124: the word, the timestamp, INVALID_ARGUMENT, and the corner cases. -/
def Obligations.TimeDecReadsTheBlock : Prop :=
  encode .timeDec = 0x4000#16 ∧
  (∀ (s : State) (bytes : List Byte), s.ports.buf = some bytes → bytes.length = 7 →
    exec .timeDec s = .next (s.ended (.ok (.timestamp (timeOfBytes bytes))))) ∧
  (∀ s : State, BufferChecked 7 s (exec .timeDec s)) ∧
  (∀ b0 b1 b2 b3 b4 b5 b6 : Byte, timeOfBytes [b0, b1, b2, b3, b4, b5, b6] =
    { year := (if b5.getLsbD 7 then 2000 else 1900) + bcdDec b6
      month := bcdDec (b5 &&& 0x1F#8)
      day := bcdDec b4
      hour := bcdDec b2
      minute := bcdDec b1
      second := bcdDec b0
      dayOfWeek := bcdDec b3 - 1 }) ∧
  timeOfBytes [0x30#8, 0x45#8, 0x13#8, 0x05#8, 0x29#8, 0x82#8, 0x24#8] = ⟨2024, 2, 29, 13, 45, 30, 4⟩ ∧
  timeOfBytes [0x00#8, 0x00#8, 0x52#8, 0x00#8, 0x01#8, 0x72#8, 0x00#8] = ⟨1900, 12, 1, 52, 0, 0, -1⟩ ∧
  timeOfBytes [0x00#8, 0x00#8, 0x00#8, 0x01#8, 0x01#8, 0x1F#8, 0x00#8] = ⟨1900, 25, 1, 0, 0, 0, 0⟩ ∧
  timeOfBytes [0x00#8, 0x00#8, 0x00#8, 0x01#8, 0x01#8, 0x81#8, 0xFF#8] = ⟨2165, 1, 1, 0, 0, 0, 0⟩

/-- R125: the word, one write transaction of eight bytes, what it leaves where it completes and where it fails, and
INVALID_ARGUMENT before any transaction. -/
def Obligations.TimeSetWritesTheBlockOnce : Prop :=
  encode .timeSet = 0x6000#16 ∧
  (∀ (s : State) (t : Timestamp), s.ports.ts = some t.toPort →
    SetByOneWrite s 0x00#8 (timeBytes t) (exec .timeSet s)) ∧
  (∀ s : State, TimestampChecked s (exec .timeSet s)) ∧
  (∀ (k : Nat) (t : Timestamp) (st : TransactionStatus),
    (writeRecord k 0x00#8 (timeBytes t) st).sent = 0x00#8 :: timeBytes t ∧ (timeBytes t).length = 7) ∧
  timeBytes ⟨2000, 1, 1, 0, 0, 0, 6⟩ = [0x00#8, 0x00#8, 0x00#8, 0x07#8, 0x01#8, 0x81#8, 0x00#8]

/-- R126 and R57: the word, one write-then-read of seven bytes, its decoding where it completes, no decoding where it
fails, and R126's example: the image of its timestamp under the simulator oracle. -/
def Obligations.TimeGetDecodesOneRead : Prop :=
  encode .timeGet = 0x5000#16 ∧
  (∀ s : State, GetByOneRead s 0x00#8 7 (fun bytes => .timestamp (timeOfBytes bytes)) (exec .timeGet s)) ∧
  (∀ (k : Nat) (st : TransactionStatus) (bytes : List Byte), (readRecord k 0x00#8 7 st bytes).sent = [0x00#8]) ∧
  (∀ s : State, s.transport = .simulator → s.completes = true →
    (∀ i, i < 7 → s.image.read (BitVec.ofNat 8 i) =
      [0x30#8, 0x45#8, 0x13#8, 0x05#8, 0x29#8, 0x82#8, 0x24#8][i]?) →
    ∃ u, exec .timeGet s = .next u ∧
      u.outcomes = s.outcomes ++ [.ok (.timestamp ⟨2024, 2, 29, 13, 45, 30, 4⟩)])

/-- R121: the century bit of the month byte, on encode and on decode; bits 6:5 are read by neither. -/
def Obligations.CenturyBitFollowsTheYear : Prop :=
  (∀ t : Timestamp, 0 ≤ t.month → t.month ≤ 79 →
    ((byteAt (timeBytes t) 5).getLsbD 7 = true ↔ 2000 ≤ t.year)) ∧
  (∀ t : Timestamp, (2000 ≤ t.year → byteAt (timeBytes t) 5 = bcdEnc t.month ||| 0x80#8 ∧
      byteAt (timeBytes t) 6 = bcdEnc (t.year - 2000)) ∧
    (t.year < 2000 → byteAt (timeBytes t) 5 = bcdEnc t.month ∧ byteAt (timeBytes t) 6 = bcdEnc (t.year - 1900))) ∧
  (∀ b0 b1 b2 b3 b4 b5 b6 : Byte,
    (b5.getLsbD 7 = true → (timeOfBytes [b0, b1, b2, b3, b4, b5, b6]).year = 2000 + bcdDec b6) ∧
    (b5.getLsbD 7 = false → (timeOfBytes [b0, b1, b2, b3, b4, b5, b6]).year = 1900 + bcdDec b6) ∧
    timeOfBytes [b0, b1, b2, b3, b4, b5 ||| 0x60#8, b6] = timeOfBytes [b0, b1, b2, b3, b4, b5 &&& 0x9F#8, b6])

/-- R122: the stored day of week is 1..7, the Euclidean remainder plus 1, the same for operands that differ by 7; it agrees
with the truncating `(d + 7) % 7` for operands of -7 and above; and it is reported back 0-based. -/
def Obligations.DayOfWeekIsStoredOneToSeven : Prop :=
  ∀ t : Timestamp,
    (1 ≤ bcdDec (byteAt (timeBytes t) 3) ∧ bcdDec (byteAt (timeBytes t) 3) ≤ 7) ∧
    (bcdDec (byteAt (timeBytes t) 3) : Int) = t.dayOfWeek % 7 + 1 ∧
    byteAt (timeBytes { t with dayOfWeek := t.dayOfWeek + 7 }) 3 = byteAt (timeBytes t) 3 ∧
    (-7 ≤ t.dayOfWeek → (bcdDec (byteAt (timeBytes t) 3) : Int) = (t.dayOfWeek + 7).tmod 7 + 1) ∧
    (timeOfBytes (timeBytes t)).dayOfWeek = t.dayOfWeek % 7

/-- R128: the time laws: the round trip on the wide range, where it fails, and the century boundary. -/
def Obligations.TimeRoundTripLaws : Prop :=
  (∀ t : Timestamp, 0 ≤ t.second → t.second ≤ 159 → 0 ≤ t.minute → t.minute ≤ 159 → 0 ≤ t.hour → t.hour ≤ 159 →
    0 ≤ t.day → t.day ≤ 159 → 0 ≤ t.month → t.month ≤ 19 → 1900 ≤ t.year → t.year ≤ 2159 →
    timeOfBytes (timeBytes t) = { t with dayOfWeek := t.dayOfWeek % 7 }) ∧
  (∀ t : Timestamp, (20 ≤ t.month ∨ 160 ≤ t.second ∨ 160 ≤ t.minute ∨ 160 ≤ t.hour ∨ 160 ≤ t.day ∨ t.year < 1900 ∨
      2159 < t.year) →
    timeOfBytes (timeBytes t) ≠ { t with dayOfWeek := t.dayOfWeek % 7 }) ∧
  (∀ t u : Timestamp, t.year = 1999 → u.year = 2000 → 0 ≤ t.month → t.month ≤ 79 → 0 ≤ u.month → u.month ≤ 79 →
    (byteAt (timeBytes t) 5).getLsbD 7 = false ∧ (byteAt (timeBytes u) 5).getLsbD 7 = true ∧
    byteAt (timeBytes t) 6 = 0x99#8 ∧ byteAt (timeBytes u) 6 = 0x00#8)

/-- R127: years outside [1900, 2099] are not corrected: the rows of the table, the years that still come back, and that no
other does. The month is one that leaves the century bit alone. -/
def Obligations.YearsOutsideTheRangeAlias : Prop :=
  ∀ t : Timestamp, 0 ≤ t.month → t.month ≤ 19 →
    (t.year = 1899 → byteAt (timeBytes t) 6 = 0x95#8 ∧ (timeOfBytes (timeBytes t)).year = 1995) ∧
    (t.year = 1800 → byteAt (timeBytes t) 6 = 0xF6#8 ∧ (timeOfBytes (timeBytes t)).year = 2056) ∧
    (t.year = 2100 → byteAt (timeBytes t) 6 = 0xA0#8 ∧ (timeOfBytes (timeBytes t)).year = 2100) ∧
    (t.year = 2159 → byteAt (timeBytes t) 6 = 0xF9#8 ∧ (timeOfBytes (timeBytes t)).year = 2159) ∧
    (t.year = 2160 → byteAt (timeBytes t) 6 = 0x00#8 ∧ (timeOfBytes (timeBytes t)).year = 2000) ∧
    (t.year = 2255 → byteAt (timeBytes t) 6 = 0x95#8 ∧ (timeOfBytes (timeBytes t)).year = 2095) ∧
    (t.year = 2256 → byteAt (timeBytes t) 6 = 0x00#8 ∧ (timeOfBytes (timeBytes t)).year = 2000) ∧
    ((byteAt (timeBytes t) 5).getLsbD 7 = true ↔ 2000 ≤ t.year) ∧
    (2100 ≤ t.year → t.year ≤ 2159 →
      (timeOfBytes (timeBytes t)).year = t.year ∧ validBcd (byteAt (timeBytes t) 6) = false) ∧
    (t.year < 1900 ∨ 2159 < t.year → (timeOfBytes (timeBytes t)).year ≠ t.year)

/-- R126's example for every timestamp of R128's wide range: under the simulator oracle, TIME.GET after TIME.SET returns
what was set, with the day of week in 0..6. That a transaction with no scripted reply completes under the simulator oracle
is the model's choice (DESIGN CHOICE, log 8), and the statement rests on it. -/
def Obligations.SimulatorReadsBackTheTimeSet : Prop :=
  ∀ (s : State) (t : Timestamp) (p : Ports) (rest : List Command),
    s.transport = .simulator → s.replies = [] →
    s.pending = { word := 0x6000#16, ports := { p with ts := some t.toPort } } :: { word := 0x5000#16, ports := p } :: rest →
    0 ≤ t.second → t.second ≤ 159 → 0 ≤ t.minute → t.minute ≤ 159 → 0 ≤ t.hour → t.hour ≤ 159 →
    0 ≤ t.day → t.day ≤ 159 → 0 ≤ t.month → t.month ≤ 19 → 1900 ≤ t.year → t.year ≤ 2159 →
    ∃ u v : State, step s = .next u ∧ step u = .next v ∧ v.pending = rest ∧
      v.outcomes = s.outcomes ++ [.ok .unit, .ok (.timestamp { t with dayOfWeek := t.dayOfWeek % 7 })]

/-! ### The alarm codec (42_alarm.md) -/

/-- R154: the words, the words that are CONTRACT_VIOLATION, the four bytes with seconds 0 where absent, INVALID_ARGUMENT in
port order, the corner cases and the example. -/
def Obligations.Alarm1EncBuildsTheBlock : Prop :=
  (∀ m : MatchMode, m.alarm = .one → encode (.alarm1Enc m) = 0x7000#16 ||| (modeCode m).setWidth 16) ∧
  (∀ mode : Byte, (∀ m : MatchMode, m.alarm = .one → modeCode m ≠ mode) →
    decode (0x7000#16 ||| mode.setWidth 16) = .contractViolation) ∧
  (∀ (s : State) (m : MatchMode) (mi h d : Int), m.alarm = .one →
    s.ports.minutes = some mi → s.ports.hours = some h → s.ports.dayOrDate = some d →
    exec (.alarm1Enc m) s = .next (s.ended (.ok (.block 0x07#8
      (alarm1Bytes (modeCode m) ⟨s.ports.seconds.getD 0, mi, h, d⟩))))) ∧
  (∀ (mode : Byte) (f : AlarmFields), alarm1Bytes mode f =
    [bcdEnc f.seconds ||| (if mode.getLsbD 0 then 0x80#8 else 0x00#8),
     bcdEnc f.minutes ||| (if mode.getLsbD 1 then 0x80#8 else 0x00#8),
     bcdEnc f.hours ||| (if mode.getLsbD 2 then 0x80#8 else 0x00#8),
     bcdEnc f.dayOrDate ||| ((if mode.getLsbD 3 then 0x80#8 else 0x00#8) ||| (if mode.getLsbD 4 then 0x40#8 else 0x00#8))]) ∧
  (∀ (s : State) (m : MatchMode), m.alarm = .one → AlarmPortsChecked s (exec (.alarm1Enc m) s)) ∧
  (∀ f : AlarmFields,
    alarm1Bytes (modeCode .a1MatchDate) f = [bcdEnc f.seconds, bcdEnc f.minutes, bcdEnc f.hours, bcdEnc f.dayOrDate] ∧
    alarm1Bytes (modeCode .a1EverySecond) f = [bcdEnc f.seconds ||| 0x80#8, bcdEnc f.minutes ||| 0x80#8,
      bcdEnc f.hours ||| 0x80#8, bcdEnc f.dayOrDate ||| 0x80#8] ∧
    alarm1Bytes (modeCode .a1MatchDay) f = [bcdEnc f.seconds, bcdEnc f.minutes, bcdEnc f.hours,
      bcdEnc f.dayOrDate ||| 0x40#8]) ∧
  alarm1Bytes (modeCode .a1MatchHours) ⟨0, 30, 14, 0⟩ = [0x00#8, 0x30#8, 0x14#8, 0x80#8]

/-- R155: the words, the words that are CONTRACT_VIOLATION, the three bytes whatever `seconds` is, INVALID_ARGUMENT in port
order, the corner cases and the example. -/
def Obligations.Alarm2EncBuildsTheBlock : Prop :=
  (∀ m : MatchMode, m.alarm = .two → encode (.alarm2Enc m) = 0x7100#16 ||| (modeCode m).setWidth 16) ∧
  (∀ mode : Byte, (∀ m : MatchMode, m.alarm = .two → modeCode m ≠ mode) →
    decode (0x7100#16 ||| mode.setWidth 16) = .contractViolation) ∧
  (∀ (s : State) (m : MatchMode) (sec mi h d : Int), m.alarm = .two →
    s.ports.minutes = some mi → s.ports.hours = some h → s.ports.dayOrDate = some d →
    exec (.alarm2Enc m) s = .next (s.ended (.ok (.block 0x0B#8 (alarm2Bytes (modeCode m) ⟨sec, mi, h, d⟩))))) ∧
  (∀ (mode : Byte) (f : AlarmFields), alarm2Bytes mode f =
    [bcdEnc f.minutes ||| (if mode.getLsbD 1 then 0x80#8 else 0x00#8),
     bcdEnc f.hours ||| (if mode.getLsbD 2 then 0x80#8 else 0x00#8),
     bcdEnc f.dayOrDate ||| ((if mode.getLsbD 3 then 0x80#8 else 0x00#8) ||| (if mode.getLsbD 4 then 0x40#8 else 0x00#8))]) ∧
  (∀ (s : State) (m : MatchMode), m.alarm = .two → AlarmPortsChecked s (exec (.alarm2Enc m) s)) ∧
  (∀ f : AlarmFields,
    alarm2Bytes (modeCode .a2MatchSeconds) f = [bcdEnc f.minutes ||| 0x80#8, bcdEnc f.hours ||| 0x80#8,
      bcdEnc f.dayOrDate ||| 0x80#8] ∧
    alarm2Bytes (modeCode .a2MatchDate) f = [bcdEnc f.minutes, bcdEnc f.hours, bcdEnc f.dayOrDate]) ∧
  alarm2Bytes (modeCode .a2MatchDay) ⟨9, 15, 7, 3⟩ = [0x15#8, 0x07#8, 0x43#8]

/-- R156: the words, four single-register writes in ascending address order or one write with ALARM_COALESCE, what each leaves
where it completes and where it fails, INVALID_ARGUMENT before any transaction, and the example. -/
def Obligations.Alarm1SetWritesItsRegisters : Prop :=
  (∀ m : MatchMode, m.alarm = .one → encode (.alarm1Set m) = 0x9000#16 ||| (modeCode m).setWidth 16) ∧
  (∀ mode : Byte, (∀ m : MatchMode, m.alarm = .one → modeCode m ≠ mode) →
    decode (0x9000#16 ||| mode.setWidth 16) = .contractViolation) ∧
  (∀ (s : State) (m : MatchMode) (mi h d : Int), m.alarm = .one →
    s.ports.minutes = some mi → s.ports.hours = some h → s.ports.dayOrDate = some d →
    (s.coalesce = false → SetByRegisterWrites s 0x07#8
      (alarm1Bytes (modeCode m) ⟨s.ports.seconds.getD 0, mi, h, d⟩) (exec (.alarm1Set m) s)) ∧
    (s.coalesce = true → SetByOneWrite s 0x07#8
      (alarm1Bytes (modeCode m) ⟨s.ports.seconds.getD 0, mi, h, d⟩) (exec (.alarm1Set m) s)) ∧
    (alarm1Bytes (modeCode m) ⟨s.ports.seconds.getD 0, mi, h, d⟩).length = 4) ∧
  (∀ (s : State) (m : MatchMode), m.alarm = .one → AlarmPortsChecked s (exec (.alarm1Set m) s)) ∧
  (registerWrites 0 0x07#8 (alarm1Bytes (modeCode .a1MatchHours) ⟨0, 30, 14, 0⟩)).map TransactionRecord.sent =
    [[0x07#8, 0x00#8], [0x08#8, 0x30#8], [0x09#8, 0x14#8], [0x0A#8, 0x80#8]]

/-- R157: the same of alarm 2, three registers. -/
def Obligations.Alarm2SetWritesItsRegisters : Prop :=
  (∀ m : MatchMode, m.alarm = .two → encode (.alarm2Set m) = 0x9100#16 ||| (modeCode m).setWidth 16) ∧
  (∀ mode : Byte, (∀ m : MatchMode, m.alarm = .two → modeCode m ≠ mode) →
    decode (0x9100#16 ||| mode.setWidth 16) = .contractViolation) ∧
  (∀ (s : State) (m : MatchMode) (sec mi h d : Int), m.alarm = .two →
    s.ports.minutes = some mi → s.ports.hours = some h → s.ports.dayOrDate = some d →
    (s.coalesce = false → SetByRegisterWrites s 0x0B#8
      (alarm2Bytes (modeCode m) ⟨sec, mi, h, d⟩) (exec (.alarm2Set m) s)) ∧
    (s.coalesce = true → SetByOneWrite s 0x0B#8
      (alarm2Bytes (modeCode m) ⟨sec, mi, h, d⟩) (exec (.alarm2Set m) s)) ∧
    (alarm2Bytes (modeCode m) ⟨sec, mi, h, d⟩).length = 3) ∧
  (∀ (s : State) (m : MatchMode), m.alarm = .two → AlarmPortsChecked s (exec (.alarm2Set m) s)) ∧
  (registerWrites 0 0x0B#8 (alarm2Bytes (modeCode .a2MatchDay) ⟨0, 15, 7, 3⟩)).map TransactionRecord.sent =
    [[0x0B#8, 0x15#8], [0x0C#8, 0x07#8], [0x0D#8, 0x43#8]]

/-- R160: the word, the specification and `legal`, INVALID_ARGUMENT, the corner cases and the example. -/
def Obligations.Alarm1DecReadsTheBlock : Prop :=
  encode .alarm1Dec = 0x8000#16 ∧
  (∀ (s : State) (b0 b1 b2 b3 : Byte), s.ports.buf = some [b0, b1, b2, b3] →
    exec .alarm1Dec s = .next (s.ended (.ok (.alarm (alarm1OfBytes [b0, b1, b2, b3])
      (modeIsLegal (alarm1Mode [b0, b1, b2, b3])))))) ∧
  (∀ s : State, BufferChecked 4 s (exec .alarm1Dec s)) ∧
  (∀ b0 b1 b2 b3 : Byte,
    alarm1OfBytes [b0, b1, b2, b3] =
      { alarm := .one, mode := alarm1Mode [b0, b1, b2, b3], seconds := some (bcdDec (b0 &&& 0x7F#8) : Int),
        minutes := bcdDec (b1 &&& 0x7F#8), hours := bcdDec (b2 &&& 0x7F#8), dayOrDate := bcdDec (b3 &&& 0x3F#8) } ∧
    alarm1Mode [b0, b1, b2, b3] = b0 >>> 7 ||| (b1 >>> 7) <<< 1 ||| (b2 >>> 7) <<< 2 ||| (b3 >>> 7) <<< 3 |||
      ((b3 >>> 6) &&& 1#8) <<< 4) ∧
  alarm1Mode [0x80#8, 0x80#8, 0x00#8, 0x00#8] = 0x03#8 ∧ modeIsLegal 0x03#8 = false ∧
  (alarm1OfBytes [0x00#8, 0x00#8, 0x52#8, 0x00#8]).hours = 52 ∧
  alarm1OfBytes [0x00#8, 0x30#8, 0x14#8, 0x80#8] = ⟨.one, 0x08#8, some 0, 30, 14, 0⟩ ∧ modeIsLegal 0x08#8 = true

/-- R161: the same of alarm 2, whose seconds are absent. -/
def Obligations.Alarm2DecReadsTheBlock : Prop :=
  encode .alarm2Dec = 0x8180#16 ∧
  (∀ (s : State) (b0 b1 b2 : Byte), s.ports.buf = some [b0, b1, b2] →
    exec .alarm2Dec s = .next (s.ended (.ok (.alarm (alarm2OfBytes [b0, b1, b2])
      (modeIsLegal (alarm2Mode [b0, b1, b2])))))) ∧
  (∀ s : State, BufferChecked 3 s (exec .alarm2Dec s)) ∧
  (∀ b0 b1 b2 : Byte,
    alarm2OfBytes [b0, b1, b2] =
      { alarm := .two, mode := alarm2Mode [b0, b1, b2], seconds := none,
        minutes := bcdDec (b0 &&& 0x7F#8), hours := bcdDec (b1 &&& 0x7F#8), dayOrDate := bcdDec (b2 &&& 0x3F#8) } ∧
    alarm2Mode [b0, b1, b2] = 0x80#8 ||| (b0 >>> 7) <<< 1 ||| (b1 >>> 7) <<< 2 ||| (b2 >>> 7) <<< 3 |||
      ((b2 >>> 6) &&& 1#8) <<< 4) ∧
  alarm2Mode [0x80#8, 0x80#8, 0x80#8] = 0x8E#8 ∧ modeIsLegal 0x8E#8 = true ∧
  alarm2OfBytes [0x15#8, 0x07#8, 0x43#8] = ⟨.two, 0x90#8, none, 15, 7, 3⟩ ∧ modeIsLegal 0x90#8 = true

/-- R162 for alarm 1: for fields whose BCD bytes have bits 7 and 6 clear, the flag bits that are 1 are exactly those of the
mode, and decoding the encoder's output returns the inputs, with seconds 0 where absent. -/
def Obligations.Alarm1FlagsAreExactlyTheModes : Prop :=
  ∀ (s : State) (m : MatchMode) (mi h d : Int), m.alarm = .one →
    s.ports.minutes = some mi → s.ports.hours = some h → s.ports.dayOrDate = some d →
    0 ≤ s.ports.seconds.getD 0 → s.ports.seconds.getD 0 ≤ 79 → 0 ≤ mi → mi ≤ 79 → 0 ≤ h → h ≤ 79 → 0 ≤ d → d ≤ 39 →
    ∃ b0 b1 b2 b3 : Byte,
      exec (.alarm1Enc m) s = .next (s.ended (.ok (.block 0x07#8 [b0, b1, b2, b3]))) ∧
      b0.getLsbD 7 = (modeCode m).getLsbD 0 ∧ b1.getLsbD 7 = (modeCode m).getLsbD 1 ∧
      b2.getLsbD 7 = (modeCode m).getLsbD 2 ∧ b3.getLsbD 7 = (modeCode m).getLsbD 3 ∧
      b3.getLsbD 6 = (modeCode m).getLsbD 4 ∧
      b0 &&& 0x7F#8 = bcdEnc (s.ports.seconds.getD 0) ∧ b1 &&& 0x7F#8 = bcdEnc mi ∧ b2 &&& 0x7F#8 = bcdEnc h ∧
      b3 &&& 0x3F#8 = bcdEnc d ∧
      ∀ t : State, t.ports.buf = some [b0, b1, b2, b3] →
        exec .alarm1Dec t = .next (t.ended (.ok (.alarm
          { alarm := .one, mode := modeCode m, seconds := some (s.ports.seconds.getD 0), minutes := mi, hours := h,
            dayOrDate := d } true)))

/-- R162 for alarm 2. -/
def Obligations.Alarm2FlagsAreExactlyTheModes : Prop :=
  ∀ (s : State) (m : MatchMode) (mi h d : Int), m.alarm = .two →
    s.ports.minutes = some mi → s.ports.hours = some h → s.ports.dayOrDate = some d →
    0 ≤ mi → mi ≤ 79 → 0 ≤ h → h ≤ 79 → 0 ≤ d → d ≤ 39 →
    ∃ b0 b1 b2 : Byte,
      exec (.alarm2Enc m) s = .next (s.ended (.ok (.block 0x0B#8 [b0, b1, b2]))) ∧
      b0.getLsbD 7 = (modeCode m).getLsbD 1 ∧ b1.getLsbD 7 = (modeCode m).getLsbD 2 ∧
      b2.getLsbD 7 = (modeCode m).getLsbD 3 ∧ b2.getLsbD 6 = (modeCode m).getLsbD 4 ∧
      b0 &&& 0x7F#8 = bcdEnc mi ∧ b1 &&& 0x7F#8 = bcdEnc h ∧ b2 &&& 0x3F#8 = bcdEnc d ∧
      ∀ t : State, t.ports.buf = some [b0, b1, b2] →
        exec .alarm2Dec t = .next (t.ended (.ok (.alarm
          { alarm := .two, mode := modeCode m, seconds := none, minutes := mi, hours := h, dayOrDate := d } true)))

/-- R163: out-of-range alarm fields are not corrected, for every mode; under the modes with no flag every field's byte is
BCD.ENC of its value (values of 100 and above too), with no +1 shift of the day. -/
def Obligations.AlarmFieldsAreNotCorrected : Prop :=
  ∀ (mode : Byte) (f : AlarmFields),
    (80 ≤ f.seconds → f.seconds ≤ 99 → (byteAt (alarm1Bytes mode f) 0).getLsbD 7 = true) ∧
    (80 ≤ f.minutes → f.minutes ≤ 99 → (byteAt (alarm1Bytes mode f) 1).getLsbD 7 = true ∧
      (byteAt (alarm2Bytes mode f) 0).getLsbD 7 = true) ∧
    (80 ≤ f.hours → f.hours ≤ 99 → (byteAt (alarm1Bytes mode f) 2).getLsbD 7 = true ∧
      (byteAt (alarm2Bytes mode f) 1).getLsbD 7 = true) ∧
    (40 ≤ f.dayOrDate → f.dayOrDate ≤ 79 → (byteAt (alarm1Bytes mode f) 3).getLsbD 6 = true ∧
      (byteAt (alarm2Bytes mode f) 2).getLsbD 6 = true) ∧
    (80 ≤ f.dayOrDate → f.dayOrDate ≤ 99 → (byteAt (alarm1Bytes mode f) 3).getLsbD 7 = true ∧
      (byteAt (alarm2Bytes mode f) 2).getLsbD 7 = true) ∧
    alarm1Bytes 0x00#8 f = [bcdEnc f.seconds, bcdEnc f.minutes, bcdEnc f.hours, bcdEnc f.dayOrDate] ∧
    alarm2Bytes 0x80#8 f = [bcdEnc f.minutes, bcdEnc f.hours, bcdEnc f.dayOrDate] ∧
    bcdEnc 80 = 0x80#8 ∧ bcdEnc 100 = 0xA0#8

/-- R158: where a SET of an alarm returns `unit` under both settings of ALARM_COALESCE, it leaves the same image, byte for
byte and address for address, and the same outcomes, fault log and command index. -/
def Obligations.CoalescingLeavesTheSameImage : Prop :=
  ∀ (m : MatchMode) (s t u : State) (i : Instr),
    i = .alarm1Set m ∨ i = .alarm2Set m →
    exec i { s with coalesce := false } = .next t → exec i { s with coalesce := true } = .next u →
    t.outcomes = s.outcomes ++ [.ok .unit] → u.outcomes = s.outcomes ++ [.ok .unit] →
    t.image = u.image ∧ t.outcomes = u.outcomes ∧ t.faults = u.faults ∧ t.cmdIndex = u.cmdIndex ∧ t.pending = u.pending

/-! ### The temperature decoder (43_temperature.md) -/

/-- R191: the word, the reading, INVALID_ARGUMENT, the corner cases and the example. -/
def Obligations.TempDecReadsQuarters : Prop :=
  encode .tempDec = 0xA000#16 ∧
  (∀ (s : State) (b0 b1 : Byte), s.ports.buf = some [b0, b1] →
    exec .tempDec s = .next (s.ended (.ok (.temperature { quarters := 4 * b0.toInt + (b1.toNat / 64 : Nat) })))) ∧
  (∀ s : State, BufferChecked 2 s (exec .tempDec s)) ∧
  (∀ b0 b1 : Byte, temperatureOfBytes [b0, b1] = { quarters := 4 * b0.toInt + (b1.toNat / 64 : Nat) } ∧
    (temperatureOfBytes [b0, b1]).celsius = (b0.toInt : Rat) + ((b1.toNat / 64 : Nat) : Rat) / 4 ∧
    -512 ≤ (temperatureOfBytes [b0, b1]).quarters ∧ (temperatureOfBytes [b0, b1]).quarters ≤ 511) ∧
  (temperatureOfBytes [0xFF#8, 0x40#8]).celsius = -3 / 4 ∧ (temperatureOfBytes [0x80#8, 0x00#8]).celsius = -128 ∧
  (temperatureOfBytes [0x7F#8, 0xC0#8]).celsius = 511 / 4 ∧ (temperatureOfBytes [0x19#8, 0x7F#8]).celsius = 101 / 4 ∧
  (temperatureOfBytes [0x19#8, 0x40#8]).celsius = 101 / 4

/-- R192 and R57: the word, one write-then-read of two bytes, its decoding where it completes, and no decoding where it
fails. -/
def Obligations.TempGetDecodesOneRead : Prop :=
  encode .tempGet = 0xB000#16 ∧
  (∀ s : State, GetByOneRead s 0x11#8 2 (fun bytes => .temperature (temperatureOfBytes bytes)) (exec .tempGet s)) ∧
  (∀ (k : Nat) (st : TransactionStatus) (bytes : List Byte), (readRecord k 0x11#8 2 st bytes).sent = [0x11#8]) ∧
  (∀ s : State, s.transport = .simulator → s.completes = true →
    s.image.read 0x11#8 = some 0xE7#8 → s.image.read 0x12#8 = some 0x80#8 →
    ∃ (u : State) (t : Temperature), exec .tempGet s = .next u ∧ u.outcomes = s.outcomes ++ [.ok (.temperature t)] ∧
      t.celsius = -49 / 2)

/-- R193: the sum rule is one 10-bit two's-complement number of quarter degrees, and every multiple of 1/4 in
[-128, 127.75] has exactly one preimage; the value is an integer of fewer than 24 bits over 2^2, so a binary32 and a
binary64 hold it exactly. -/
def Obligations.TemperatureIsTenBitTwosComplement : Prop :=
  (∀ b0 b1 : Byte,
    (b0.toNat * 4 + b1.toNat / 64 < 512 →
      (temperatureOfBytes [b0, b1]).quarters = ((b0.toNat * 4 + b1.toNat / 64 : Nat) : Int)) ∧
    (512 ≤ b0.toNat * 4 + b1.toNat / 64 →
      (temperatureOfBytes [b0, b1]).quarters = ((b0.toNat * 4 + b1.toNat / 64 : Nat) : Int) - 1024)) ∧
  (∀ b0 b1 c0 c1 : Byte, temperatureOfBytes [b0, b1] = temperatureOfBytes [c0, c1] →
    b0 = c0 ∧ b1.toNat / 64 = c1.toNat / 64) ∧
  (∀ q : Int, -512 ≤ q → q ≤ 511 → ∃ b0 b1 : Byte, temperatureOfBytes [b0, b1] = { quarters := q }) ∧
  (∀ b0 b1 : Byte, ∃ q : Int, (temperatureOfBytes [b0, b1]).celsius = (q : Rat) / 2 ^ 2 ∧ q.natAbs < 2 ^ 24)

/-! ### Memory and the transport (20_memory.md) -/

/-- R48 with R43: a completed write leaves `bytes` at its addresses and every other address alone. Where the block runs past
0xFF, an address no command reaches, it goes on at 0x00: the model's choice (DESIGN CHOICE, log 18), no rule of the spec. -/
def Obligations.CompletedWriteLands : Prop :=
  ∀ (s : State) (a : Byte) (bytes : List Byte), s.completes = true → bytes.length ≤ 256 →
    (memWrite a bytes s).2 = .ok ∧ s.image.HoldsBlock (memWrite a bytes s).1.image a bytes ∧
    (memWrite a bytes s).1.hist = s.hist ++ [writeRecord s.cmdIndex a bytes .ok]

/-- R49: a failed write leaves each target address old or new, and which, a script can choose freely; a failed read
returns no bytes and changes no register. The script is the model's form of R49's draw (DESIGN CHOICE, log 6, log 7), and that
a block running past 0xFF, which no command issues, goes on at 0x00 is the model's choice (DESIGN CHOICE, log 18). -/
def Obligations.FailedTransactionsLandFreely : Prop :=
  (∀ (s : State) (a : Byte) (bytes : List Byte), s.completes = false → bytes.length ≤ 256 →
    (memWrite a bytes s).2 = .failure ∧ s.image.OldOrNew (memWrite a bytes s).1.image a bytes) ∧
  (∀ (s : State) (a : Byte) (bytes : List Byte) (landed : List Bool) (rest : List Reply),
    s.transport ≠ .absent → s.replies = .fails landed :: rest → landed.length = bytes.length → bytes.length ≤ 256 →
    ∀ i, i < bytes.length →
      (memWrite a bytes s).1.image.read (a + BitVec.ofNat 8 i) =
        if landed.getD i false then bytes[i]? else s.image.read (a + BitVec.ofNat 8 i)) ∧
  (∀ (s : State) (a : Byte) (n : Nat), s.completes = false →
    (memRead a n s).2 = none ∧ (memRead a n s).1.image = s.image)

/-- R47: the model places no law on what a read returns: any `n` bytes are the answer of some script; and under the simulator
oracle the answer is the register image. The script is the model's form of R47's draw (DESIGN CHOICE, log 6), and that
addresses past 0xFF, which no command reads, go on at 0x00 is the model's choice (DESIGN CHOICE, log 18). -/
def Obligations.ReadsAreUnconstrainedDraws : Prop :=
  (∀ (s : State) (a : Byte) (bytes : List Byte) (rest : List Reply),
    s.transport = .device → s.replies = .completes bytes :: rest →
    (memRead a bytes.length s).2 = some bytes) ∧
  (∀ (s : State) (a : Byte) (n i : Nat), s.transport = .simulator → s.completes = true → i < n →
    ∀ v, s.image.read (a + BitVec.ofNat 8 i) = some v →
      (memRead a n s).2.map (fun bytes => bytes[i]?) = some (some v))

/-- R55, R49: a read, completed or not, changes no register. The other two clauses are the model's choice, its form of R55's
"two independent draws": a read uses up one scripted reply where there is a transport and moves the model's own counter by
1, so the next read has a draw of its own (DESIGN CHOICE, log 6, log 7, log 12). -/
def Obligations.ReadsHaveNoSideEffect : Prop :=
  ∀ (s : State) (a : Byte) (n : Nat),
    (memRead a n s).1.image = s.image ∧
    (s.transport ≠ .absent → (memRead a n s).1.replies = s.replies.tail) ∧
    (memRead a n s).1.drawIndex = s.drawIndex + 1

/-- R242: with no transport, a command that needs one ends in TRANSPORT_FAILURE at its first transaction, whatever the script
and the free values are. -/
def Obligations.AbsentTransportFailsAtOnce : Prop :=
  ∀ s : State, s.transport = .absent →
    s.completes = false ∧
    (∃ u, exec .timeGet s = .next u ∧ u.outcomes = s.outcomes ++ [.exception (.transportFailure 0 0x00#8)]) ∧
    (∃ u, exec .tempGet s = .next u ∧ u.outcomes = s.outcomes ++ [.exception (.transportFailure 0 0x11#8)]) ∧
    (∀ t : Timestamp, s.ports.ts = some t.toPort →
      ∃ u, exec .timeSet s = .next u ∧ u.outcomes = s.outcomes ++ [.exception (.transportFailure 0 0x00#8)]) ∧
    (∀ (m : MatchMode) (mi h d : Int), s.ports.minutes = some mi → s.ports.hours = some h → s.ports.dayOrDate = some d →
      (m.alarm = .one →
        ∃ u, exec (.alarm1Set m) s = .next u ∧ u.outcomes = s.outcomes ++ [.exception (.transportFailure 0 0x07#8)]) ∧
      (m.alarm = .two →
        ∃ u, exec (.alarm2Set m) s = .next u ∧ u.outcomes = s.outcomes ++ [.exception (.transportFailure 0 0x0B#8)]))

/-! ### The whole machine -/

/-- R240: the start of a run. -/
def Obligations.RunStartsEmpty : Prop :=
  State.reset.cmdIndex = 0 ∧ State.reset.hist = [] ∧ State.reset.outcomes = [] ∧ State.reset.faults = []

/-- The invariant at the start of a run. -/
def Obligations.InvAtReset : Prop := State.reset.Inv

/-- Every step keeps the invariant. -/
def Obligations.EveryStepKeepsInv : Prop :=
  ∀ s t : State, s.Inv → step s = .next t → t.Inv

/-- R24, R27, R217: every command that is presented reaches its outcome, whatever it is: the step answers a next state with
the index one further, one more outcome and the next command up. -/
def Obligations.EveryCommandReachesItsOutcome : Prop :=
  ∀ (s : State) (c : Command) (rest : List Command), s.pending = c :: rest →
    ∃ (t : State) (o : CommandOutcome) (records : List TransactionRecord) (newFaults : List FaultRecord),
      step s = .next t ∧ t.pending = rest ∧ t.cmdIndex = s.cmdIndex + 1 ∧ t.outcomes = s.outcomes ++ [o] ∧
      t.hist = s.hist ++ records ∧ t.faults = s.faults ++ newFaults ∧
      t.coalesce = s.coalesce ∧ t.transport = s.transport

/-- R24, R50: the commands presented run in order, all of them, and nothing stops the run. -/
def Obligations.AllPresentedCommandsRunInOrder : Prop :=
  ∀ (k : Nat) (s : State), k ≤ s.pending.length →
    ∃ t, core.run k s = .next t ∧ t.pending = s.pending.drop k ∧ t.cmdIndex = s.cmdIndex + k ∧
      t.outcomes.length = s.outcomes.length + k ∧ t.outcomes.take s.outcomes.length = s.outcomes

/-- R211: a fault is logged exactly for the words the decoder rejects, and the log is never cleared. That the entry holds the
index of its command is no word of R211: it is read from program P5 of 95_test_vectors.md (DEDUCED, log 25). -/
def Obligations.FaultLogGrowsOnlyByRejectedWords : Prop :=
  ∀ (s t : State) (c : Command) (rest : List Command), s.pending = c :: rest → step s = .next t →
    (∀ i, decode c.word = .operation i → t.faults = s.faults) ∧
    (decode c.word = .illegalCommand → t.faults = s.faults ++ [{ cmdIndex := s.cmdIndex, fault := .illegalCommand c.word }]) ∧
    (decode c.word = .contractViolation →
      t.faults = s.faults ++ [{ cmdIndex := s.cmdIndex, fault := .contractViolation c.word }])

/-- R44, R45, R53: every transaction a step issues is one of the table of R53, and no step changes a register outside
0x00..0x0D: the control, status and temperature registers, 0x10, and 0x13..0xFF. -/
def Obligations.OnlyTimeAndAlarmRegistersAreWritten : Prop :=
  ∀ s t : State, step s = .next t →
    (∀ r ∈ t.hist.drop s.hist.length, r.inAccessTable ∧ r.cmdIndex = s.cmdIndex) ∧
    (∀ a : Byte, 0x0D#8 < a → t.image.read a = s.image.read a)

/-- The frame of the commands that issue no transaction (R53, last row): nothing changes but the outcome, the index and the
next command, for every state, operand and form. -/
def Obligations.PureCodecsChangeNothingElse : Prop :=
  ∀ (i : Instr) (s : State), i.wellFormed = true →
    i ∈ [.bcdEnc, .bcdDec, .timeEnc, .timeDec, .alarm1Dec, .alarm2Dec, .tempDec] ∨
      (∃ m, i = .alarm1Enc m) ∨ (∃ m, i = .alarm2Enc m) →
    ∃ o, exec i s = .next (s.ended o)

/-- The frame of the transaction commands: each writes at most its own registers (TIME.SET 0x00..0x06, ALARM1.SET
0x07..0x0A, ALARM2.SET 0x0B..0x0D, the GETs none), and the fault log, the transport and ALARM_COALESCE stay. -/
def Obligations.TransactionCommandsStayInTheirBlock : Prop :=
  ∀ (i : Instr) (s t : State), i.wellFormed = true → exec i s = .next t →
    (i = .timeSet → ∀ a : Byte, 0x06#8 < a → t.image.read a = s.image.read a) ∧
    (∀ m, i = .alarm1Set m → ∀ a : Byte, a < 0x07#8 ∨ 0x0A#8 < a → t.image.read a = s.image.read a) ∧
    (∀ m, i = .alarm2Set m → ∀ a : Byte, a < 0x0B#8 ∨ 0x0D#8 < a → t.image.read a = s.image.read a) ∧
    (i = .timeGet ∨ i = .tempGet → t.image = s.image) ∧
    t.faults = s.faults ∧ t.transport = s.transport ∧ t.coalesce = s.coalesce

/-- R20, R27: nothing of an earlier command but the device's registers reaches a later one: two states that agree on the
inputs (commands, transport, replies, counter, ALARM_COALESCE) and on the register image, and differ in any way in history,
outcomes, fault log and command index, step to states that agree on all of these again and add the same outcome. -/
def Obligations.RecordsDoNotInfluenceCommands : Prop :=
  ∀ s s' : State,
    s.pending = s'.pending → s.image = s'.image → s.transport = s'.transport → s.replies = s'.replies →
    s.drawIndex = s'.drawIndex → s.coalesce = s'.coalesce →
    ∃ t t', step s = .next t ∧ step s' = .next t' ∧
      t.pending = t'.pending ∧ t.image = t'.image ∧ t.transport = t'.transport ∧ t.replies = t'.replies ∧
      t.drawIndex = t'.drawIndex ∧ t.coalesce = t'.coalesce ∧
      t.outcomes.drop s.outcomes.length = t'.outcomes.drop s'.outcomes.length ∧
      (t.hist.drop s.hist.length).map (fun r => (r.kind, r.addr, r.payloadOrLen, r.status, r.readBytes)) =
        (t'.hist.drop s'.hist.length).map (fun r => (r.kind, r.addr, r.payloadOrLen, r.status, r.readBytes))

/-- R20: a pure codec's outcome depends on its word and its ports alone, not on the device, the transport or anything an
earlier command left. -/
def Obligations.PureCodecsReadOnlyTheirPorts : Prop :=
  ∀ (i : Instr) (s s' : State), i.wellFormed = true → s.ports = s'.ports →
    i ∈ [.bcdEnc, .bcdDec, .timeEnc, .timeDec, .alarm1Dec, .alarm2Dec, .tempDec] ∨
      (∃ m, i = .alarm1Enc m) ∨ (∃ m, i = .alarm2Enc m) →
    ∃ o, exec i s = .next (s.ended o) ∧ exec i s' = .next (s'.ended o)

/-- R216, R217: INVALID_ARGUMENT outranks TRANSPORT_FAILURE: a SET whose port is missing ends so under every transport, with
no transaction. -/
def Obligations.MissingPortOutranksTransport : Prop :=
  ∀ s : State,
    (s.ports.ts = none → EndsInvalidArgument s .ts (exec .timeSet s)) ∧
    (∀ m : MatchMode, m.alarm = .one → s.ports.minutes = none → EndsInvalidArgument s .minutes (exec (.alarm1Set m) s)) ∧
    (∀ m : MatchMode, m.alarm = .two → s.ports.minutes = none → EndsInvalidArgument s .minutes (exec (.alarm2Set m) s))

/-! ### The assembler (30_encoding.md R79, R80) -/

/-- R80: each pseudo-instruction is the command of its expansion. The clause on `alarm1SetNoSeconds` is the model's choice
(DESIGN CHOICE, log 26), no rule of the spec: R80 says "with four operands after `mode`" of ALARM.SET 1, and the clause is
about the line with three. -/
def Obligations.PseudoInstructionsAreTheirExpansions : Prop :=
  ∀ (mode : Byte) (mi h d : Int) (t : Timestamp),
    (AsmLine.alarm1EncNoSeconds mode mi h d).assemble = (AsmLine.alarm1Enc mode 0 mi h d).assemble ∧
    (AsmLine.alarm1SetNoSeconds mode mi h d).assemble = (AsmLine.alarm1Set mode 0 mi h d).assemble ∧
    AsmLine.timeRd.assemble = AsmLine.timeGet.assemble ∧ (AsmLine.timeWr t).assemble = (AsmLine.timeSet t).assemble ∧
    AsmLine.tempRd.assemble = AsmLine.tempGet.assemble

/-- R79: a legal mode of the alarm assembles to its instruction's word; a mode byte that is not in the table assembles as
written, and the decoder then answers CONTRACT_VIOLATION. -/
def Obligations.AssembledAlarmWordsDecode : Prop :=
  ∀ (mode : Byte) (sec mi h d : Int),
    (∀ m : MatchMode, m.alarm = .one → mode = modeCode m →
      decode (AsmLine.alarm1Enc mode sec mi h d).assemble.word = .operation (.alarm1Enc m) ∧
      decode (AsmLine.alarm1Set mode sec mi h d).assemble.word = .operation (.alarm1Set m)) ∧
    (∀ m : MatchMode, m.alarm = .two → mode = modeCode m →
      decode (AsmLine.alarm2Enc mode mi h d).assemble.word = .operation (.alarm2Enc m) ∧
      decode (AsmLine.alarm2Set mode mi h d).assemble.word = .operation (.alarm2Set m)) ∧
    ((∀ m : MatchMode, modeCode m ≠ mode) →
      decode (AsmLine.alarm1Enc mode sec mi h d).assemble.word = .contractViolation ∧
      decode (AsmLine.alarm1Set mode sec mi h d).assemble.word = .contractViolation ∧
      decode (AsmLine.alarm2Enc mode mi h d).assemble.word = .contractViolation ∧
      decode (AsmLine.alarm2Set mode mi h d).assemble.word = .contractViolation) ∧
    (∀ buf : List Byte, decode (AsmLine.alarmDec .one buf).assemble.word = .operation .alarm1Dec ∧
      decode (AsmLine.alarmDec .two buf).assemble.word = .operation .alarm2Dec)
end

