-- ==== Sys2Proof/Laws/State.lean ====
section
/-! SUPPORT. One lemma per field per update of the state, true by rfl. -/

namespace Sys2Proof.Machine

section EndCommand
variable (s : State) (o : CommandOutcome)

@[simp] theorem endCommand_pending : (s.endCommand o).pending = s.pending.tail := rfl
@[simp] theorem endCommand_cmdIndex : (s.endCommand o).cmdIndex = s.cmdIndex + 1 := rfl
@[simp] theorem endCommand_hist : (s.endCommand o).hist = s.hist := rfl
@[simp] theorem endCommand_outcomes : (s.endCommand o).outcomes = s.outcomes ++ [o] := rfl
@[simp] theorem endCommand_faults : (s.endCommand o).faults = s.faults := rfl
@[simp] theorem endCommand_image : (s.endCommand o).image = s.image := rfl
@[simp] theorem endCommand_transport : (s.endCommand o).transport = s.transport := rfl
@[simp] theorem endCommand_replies : (s.endCommand o).replies = s.replies := rfl
@[simp] theorem endCommand_drawIndex : (s.endCommand o).drawIndex = s.drawIndex := rfl
@[simp] theorem endCommand_coalesce : (s.endCommand o).coalesce = s.coalesce := rfl

end EndCommand

section LogTransaction
variable (r : TransactionRecord) (s : State)

@[simp] theorem logTransaction_pending : (s.logTransaction r).pending = s.pending := rfl
@[simp] theorem logTransaction_cmdIndex : (s.logTransaction r).cmdIndex = s.cmdIndex := rfl
@[simp] theorem logTransaction_hist : (s.logTransaction r).hist = s.hist ++ [r] := rfl
@[simp] theorem logTransaction_outcomes : (s.logTransaction r).outcomes = s.outcomes := rfl
@[simp] theorem logTransaction_faults : (s.logTransaction r).faults = s.faults := rfl
@[simp] theorem logTransaction_image : (s.logTransaction r).image = s.image := rfl
@[simp] theorem logTransaction_transport : (s.logTransaction r).transport = s.transport := rfl
@[simp] theorem logTransaction_replies :
    (s.logTransaction r).replies = if s.transport = .absent then s.replies else s.replies.tail := rfl
@[simp] theorem logTransaction_drawIndex : (s.logTransaction r).drawIndex = s.drawIndex + 1 := rfl
@[simp] theorem logTransaction_coalesce : (s.logTransaction r).coalesce = s.coalesce := rfl

end LogTransaction

section InputsUsed
variable (s : State) (k : Nat)

@[simp] theorem inputsUsed_pending : (s.inputsUsed k).pending = s.pending := rfl
@[simp] theorem inputsUsed_cmdIndex : (s.inputsUsed k).cmdIndex = s.cmdIndex := rfl
@[simp] theorem inputsUsed_hist : (s.inputsUsed k).hist = s.hist := rfl
@[simp] theorem inputsUsed_outcomes : (s.inputsUsed k).outcomes = s.outcomes := rfl
@[simp] theorem inputsUsed_faults : (s.inputsUsed k).faults = s.faults := rfl
@[simp] theorem inputsUsed_image : (s.inputsUsed k).image = s.image := rfl
@[simp] theorem inputsUsed_transport : (s.inputsUsed k).transport = s.transport := rfl
@[simp] theorem inputsUsed_replies :
    (s.inputsUsed k).replies = if s.transport = .absent then s.replies else s.replies.drop k := rfl
@[simp] theorem inputsUsed_drawIndex : (s.inputsUsed k).drawIndex = s.drawIndex + k := rfl
@[simp] theorem inputsUsed_coalesce : (s.inputsUsed k).coalesce = s.coalesce := rfl

end InputsUsed

/-- The model's own end of a command is the one the statements describe. -/
@[simp] theorem endCommand_eq_ended (s : State) (o : CommandOutcome) : s.endCommand o = s.ended o := rfl

@[simp] theorem succeed_eq_ended (v : Result) (s : State) : succeed v s = s.ended (.ok v) := rfl

/-- A reported error leaves the fault log alone (R211). -/
theorem raise_reported {e : Exc} (s : State) (h : e.isFault = false) : raise e s = s.ended (.exception e) := by
  simp [raise, h, State.ended]

/-- A fault joins the fault log (R211). -/
theorem raise_fault {e : Exc} (s : State) (h : e.isFault = true) : raise e s = s.endedByFault e := by
  simp [raise, h, State.ended, State.endedByFault]

@[simp] theorem raise_invalidArgument (p : PortName) (s : State) :
    raise (.invalidArgument p) s = s.ended (.exception (.invalidArgument p)) := raise_reported s rfl

@[simp] theorem raise_transportFailure (k : Nat) (a : Byte) (s : State) :
    raise (.transportFailure k a) s = s.ended (.exception (.transportFailure k a)) := raise_reported s rfl

@[simp] theorem raise_illegalCommand (w : Word) (s : State) :
    raise (.illegalCommand w) s = s.endedByFault (.illegalCommand w) := raise_fault s rfl

@[simp] theorem raise_contractViolation (w : Word) (s : State) :
    raise (.contractViolation w) s = s.endedByFault (.contractViolation w) := raise_fault s rfl

section Ended
variable (s : State) (o : CommandOutcome)

@[simp] theorem ended_pending : (s.ended o).pending = s.pending.tail := rfl
@[simp] theorem ended_cmdIndex : (s.ended o).cmdIndex = s.cmdIndex + 1 := rfl
@[simp] theorem ended_hist : (s.ended o).hist = s.hist := rfl
@[simp] theorem ended_outcomes : (s.ended o).outcomes = s.outcomes ++ [o] := rfl
@[simp] theorem ended_faults : (s.ended o).faults = s.faults := rfl
@[simp] theorem ended_image : (s.ended o).image = s.image := rfl
@[simp] theorem ended_transport : (s.ended o).transport = s.transport := rfl
@[simp] theorem ended_replies : (s.ended o).replies = s.replies := rfl
@[simp] theorem ended_drawIndex : (s.ended o).drawIndex = s.drawIndex := rfl
@[simp] theorem ended_coalesce : (s.ended o).coalesce = s.coalesce := rfl

end Ended

section EndedByFault
variable (s : State) (e : Exc)

@[simp] theorem endedByFault_pending : (s.endedByFault e).pending = s.pending.tail := rfl
@[simp] theorem endedByFault_cmdIndex : (s.endedByFault e).cmdIndex = s.cmdIndex + 1 := rfl
@[simp] theorem endedByFault_hist : (s.endedByFault e).hist = s.hist := rfl
@[simp] theorem endedByFault_outcomes : (s.endedByFault e).outcomes = s.outcomes ++ [.exception e] := rfl
@[simp] theorem endedByFault_faults :
    (s.endedByFault e).faults = s.faults ++ [{ cmdIndex := s.cmdIndex, fault := e }] := rfl
@[simp] theorem endedByFault_image : (s.endedByFault e).image = s.image := rfl
@[simp] theorem endedByFault_transport : (s.endedByFault e).transport = s.transport := rfl
@[simp] theorem endedByFault_replies : (s.endedByFault e).replies = s.replies := rfl
@[simp] theorem endedByFault_drawIndex : (s.endedByFault e).drawIndex = s.drawIndex := rfl
@[simp] theorem endedByFault_coalesce : (s.endedByFault e).coalesce = s.coalesce := rfl

end EndedByFault

@[simp] theorem presentWord_pending (s : State) (w : Word) :
    (s.presentWord w).pending = { word := w, ports := s.ports } :: s.pending.tail := rfl
@[simp] theorem presentWord_ports (s : State) (w : Word) : (s.presentWord w).ports = s.ports := rfl
@[simp] theorem presentWord_image (s : State) (w : Word) : (s.presentWord w).image = s.image := rfl

/-- The ports of a presented command. -/
theorem ports_of_pending {s : State} {c : Command} {rest : List Command} (h : s.pending = c :: rest) :
    s.ports = c.ports := by simp [State.ports, h]

end Sys2Proof.Machine
end

