-- ==== Sys2Proof/Laws/Codec.lean ====
section
/-! SUPPORT. The arithmetic of the codecs: what each byte function gives, as numbers, and the ranges of the decoders' results. -/

namespace Sys2Proof.Machine

/-! ### BCD (40_bcd.md) -/

/-- BCD_ENC as a number (R101). -/
theorem bcdEnc_toNat (n : Int) :
    (bcdEnc n).toNat = ((n % 256).toNat / 10 * 16 + (n % 256).toNat % 10) % 256 := by
  simp [bcdEnc, bcdEncWith, bcdWide, trunc8]

/-- BCD_ENC where no wrap occurs. -/
theorem bcdEnc_toNat_of_le {n : Int} (h0 : 0 ≤ n) (h : n ≤ 159) :
    (bcdEnc n).toNat = n.toNat / 10 * 16 + n.toNat % 10 := by
  rw [bcdEnc_toNat]
  omega

theorem bcdDec_eq (b : Byte) : bcdDec b = b.toNat / 16 * 10 + b.toNat % 16 := rfl

theorem bcdDec_le (b : Byte) : bcdDec b ≤ 165 := by
  have := b.isLt
  rw [bcdDec_eq]
  omega

/-- The BCD round trip on 0..159 (R103 laws 1 and 2). -/
theorem bcdDec_bcdEnc {n : Int} (h0 : 0 ≤ n) (h : n ≤ 159) : (bcdDec (bcdEnc n) : Int) = n := by
  rw [bcdDec_eq, bcdEnc_toNat_of_le h0 h]
  omega

theorem inBcdRange_bcdDec (b : Byte) : inBcdRange (bcdDec b) := by
  have := bcdDec_le b
  exact ⟨by omega, by omega⟩

/-! ### Masks and flags as numbers -/

theorem toNat_and_1F (b : Byte) : (b &&& 0x1F#8).toNat = b.toNat % 32 := by
  rw [BitVec.toNat_and]
  exact Nat.and_two_pow_sub_one_eq_mod b.toNat 5

theorem toNat_and_7F (b : Byte) : (b &&& 0x7F#8).toNat = b.toNat % 128 := by
  rw [BitVec.toNat_and]
  exact Nat.and_two_pow_sub_one_eq_mod b.toNat 7

theorem toNat_and_3F (b : Byte) : (b &&& 0x3F#8).toNat = b.toNat % 64 := by
  rw [BitVec.toNat_and]
  exact Nat.and_two_pow_sub_one_eq_mod b.toNat 6

/-- Bit 7 of a byte, by its value. -/
theorem getLsbD_seven (b : Byte) : b.getLsbD 7 = decide (128 ≤ b.toNat) := by
  have := b.isLt
  rw [BitVec.getLsbD, Nat.testBit_eq_decide_div_mod_eq, decide_eq_decide]
  omega

/-- Bit 6 of a byte, by its value. -/
theorem getLsbD_six (b : Byte) : b.getLsbD 6 = decide (64 ≤ b.toNat % 128) := by
  have := b.isLt
  rw [BitVec.getLsbD, Nat.testBit_eq_decide_div_mod_eq, decide_eq_decide]
  omega

/-- ORing bit 7 into a byte whose bit 7 is clear adds 128. -/
theorem toNat_or_80 {b : Byte} (h : b.toNat < 128) : (b ||| 0x80#8).toNat = b.toNat + 128 := by
  have := Nat.two_pow_add_eq_or_of_lt (i := 7) h 1
  rw [BitVec.toNat_or, Nat.or_comm, show (0x80#8).toNat = 2 ^ 7 * 1 from rfl, ← this]
  omega

@[simp] theorem byteAt_cons_zero (b : Byte) (bs : List Byte) : byteAt (b :: bs) 0 = b := rfl
@[simp] theorem byteAt_cons_succ (b : Byte) (bs : List Byte) (i : Nat) : byteAt (b :: bs) (i + 1) = byteAt bs i := rfl

@[simp] theorem timeBytes_length (t : Timestamp) : (timeBytes t).length = 7 := rfl
@[simp] theorem alarm1Bytes_length (mode : Byte) (f : AlarmFields) : (alarm1Bytes mode f).length = 4 := rfl
@[simp] theorem alarm2Bytes_length (mode : Byte) (f : AlarmFields) : (alarm2Bytes mode f).length = 3 := rfl

/-! ### Required ports -/

@[simp] theorem complete_toPort (t : Timestamp) : t.toPort.complete = some t := rfl

theorem timestampOperand_supplied {p : Ports} {t : Timestamp} (h : p.ts = some t.toPort) :
    timestampOperand p = .ok t := by simp [timestampOperand, h, required]

/-- A timestamp with a missing field is not complete. -/
theorem complete_eq_none {p : TimestampPort}
    (h : p.year = none ∨ p.month = none ∨ p.day = none ∨ p.hour = none ∨ p.minute = none ∨ p.second = none ∨
      p.dayOfWeek = none) : p.complete = none := by
  obtain ⟨y, mo, d, h', mi, s, w⟩ := p
  cases y <;> cases mo <;> cases d <;> cases h' <;> cases mi <;> cases s <;> cases w <;> first | rfl | simp at h

theorem bufferOperand_supplied {len : Nat} {p : Ports} {bytes : List Byte} (h : p.buf = some bytes)
    (hl : bytes.length = len) : bufferOperand len p = .ok bytes := by simp [bufferOperand, h, hl]

theorem alarmOperands_supplied {p : Ports} {mi h d : Int} (hm : p.minutes = some mi) (hh : p.hours = some h)
    (hd : p.dayOrDate = some d) : alarmOperands p = .ok ⟨p.seconds.getD 0, mi, h, d⟩ := by
  simp [alarmOperands, hm, hh, hd]

/-! ### The ranges of the decoders' results (R30) -/

theorem timeOfBytes_inRange (bytes : List Byte) : (timeOfBytes bytes).inDecodedRange := by
  refine ⟨inBcdRange_bcdDec _, inBcdRange_bcdDec _, inBcdRange_bcdDec _, inBcdRange_bcdDec _, ?_, ?_, ?_⟩
  · have := bcdDec_le (byteAt bytes 3)
    simp only [timeOfBytes]
    omega
  · have h := bcdDec_eq (byteAt bytes 5 &&& 0x1F#8)
    rw [toNat_and_1F] at h
    simp only [timeOfBytes]
    omega
  · have := bcdDec_le (byteAt bytes 6)
    simp only [timeOfBytes, centuryBase]
    split <;> omega

theorem modeOfFlags_seven (s m h d dy a2 : Bool) : (modeOfFlags s m h d dy a2).getLsbD 7 = a2 := by
  cases s <;> cases m <;> cases h <;> cases d <;> cases dy <;> cases a2 <;> rfl

theorem alarm1OfBytes_inRange (bytes : List Byte) : (alarm1OfBytes bytes).inDecodedRange :=
  ⟨inBcdRange_bcdDec _, inBcdRange_bcdDec _, inBcdRange_bcdDec _, inBcdRange_bcdDec _, modeOfFlags_seven ..⟩

theorem alarm2OfBytes_inRange (bytes : List Byte) : (alarm2OfBytes bytes).inDecodedRange :=
  ⟨inBcdRange_bcdDec _, inBcdRange_bcdDec _, inBcdRange_bcdDec _, modeOfFlags_seven ..⟩

theorem sext8_range (b : Byte) : -128 ≤ sext8 b ∧ sext8 b ≤ 127 := by
  have := b.isLt
  simp only [sext8]
  split <;> omega

theorem temperatureOfBytes_inRange (bytes : List Byte) :
    -512 ≤ (temperatureOfBytes bytes).quarters ∧ (temperatureOfBytes bytes).quarters ≤ 511 := by
  have h0 := sext8_range (byteAt bytes 0)
  have h1 := (byteAt bytes 1).isLt
  simp only [temperatureOfBytes, quarterField]
  omega

end Sys2Proof.Machine
end

