-- ==== Sys2Proof/Laws/Decode.lean ====
section
/-! SUPPORT. The mode code table and the decoder: what each answers. -/

namespace Sys2Proof

/-- A mode's code stands for that mode and no other (R76). -/
@[simp] theorem modeOfCode_modeCode (m : MatchMode) : modeOfCode (modeCode m) = some m := by
  cases m <;> decide

/-- What a code stands for has that code (R76). -/
theorem modeCode_of_modeOfCode {c : Byte} {m : MatchMode} (h : modeOfCode c = some m) : modeCode m = c := by
  have := List.find?_some h
  simpa using this

/-- A legal code is one of the table's (R76). -/
theorem modeIsLegal_iff (c : Byte) : modeIsLegal c = true ↔ ∃ m : MatchMode, modeCode m = c := by
  refine ⟨fun h => ?_, fun ⟨m, h⟩ => by simp [modeIsLegal, ← h]⟩
  obtain ⟨m, hm⟩ := Option.isSome_iff_exists.mp h
  exact ⟨m, modeCode_of_modeOfCode hm⟩

/-- A code that is not in the table stands for nothing (R77). -/
theorem modeOfCode_eq_none {c : Byte} (h : ∀ m : MatchMode, modeCode m ≠ c) : modeOfCode c = none := by
  cases hm : modeOfCode c with
  | none => rfl
  | some m => exact absurd (modeCode_of_modeOfCode hm) (h m)

/-- Bit 7 of a mode's code is the alarm-2 bit (R75). -/
theorem modeCode_bit_seven (m : MatchMode) : (modeCode m).getLsbD 7 = true ↔ m.alarm = .two := by
  cases m <;> decide

/-! ### The fields as numbers (R71) -/

theorem opField_eq (w : Word) : opField w = w.toNat / 4096 := by
  have := w.isLt
  simp only [opField, BitVec.extractLsb'_toNat, Nat.shiftRight_eq_div_pow]
  omega

theorem rsvField_toNat (w : Word) : (rsvField w).toNat = w.toNat / 512 % 8 := by
  simp only [rsvField, BitVec.extractLsb'_toNat, Nat.shiftRight_eq_div_pow]

theorem rsvField_eq_zero (w : Word) : rsvField w = 0 ↔ w.toNat / 512 % 8 = 0 := by
  rw [← rsvField_toNat, ← BitVec.toNat_inj]
  rfl

theorem almField_eq (w : Word) : almField w = decide (w.toNat / 256 % 2 = 1) := by
  rw [almField, BitVec.getLsbD, Nat.testBit_eq_decide_div_mod_eq]

theorem modeField_toNat (w : Word) : (modeField w).toNat = w.toNat % 256 := by
  simp only [modeField, BitVec.extractLsb'_toNat, Nat.shiftRight_eq_div_pow]
  omega

theorem modeField_bit_seven (w : Word) : (modeField w).getLsbD 7 = decide (w.toNat / 128 % 2 = 1) := by
  rw [BitVec.getLsbD, Nat.testBit_eq_decide_div_mod_eq, modeField_toNat, decide_eq_decide]
  omega

/-- An operation word with a mode byte ORed into its clear low byte. -/
theorem toNat_or_mode {op : Nat} (hop : op < 256) (mode : Byte) :
    (BitVec.ofNat 16 (op * 256) ||| mode.setWidth 16).toNat = op * 256 + mode.toNat := by
  have h := Nat.two_pow_add_eq_or_of_lt (i := 8) mode.isLt op
  have hm := mode.isLt
  rw [BitVec.toNat_or, BitVec.toNat_ofNat, BitVec.toNat_setWidth, Nat.mod_eq_of_lt (by omega),
    Nat.mod_eq_of_lt (by omega), show op * 256 = 2 ^ 8 * op by omega, ← h]

end Sys2Proof
end

