-- ==== Sys2Proof/Laws/Memory.lean ====
section
/-! SUPPORT. The laws of the register image: every operation keeps the canonical form, and what a read gives after each. -/

namespace Sys2Proof.Machine

/-! ### The canonical form -/

/-- The addresses of a written image are the old ones and the new one. -/
theorem write_mem {m : Memory} {a v : Byte} {c : Host.Cell} (h : c ∈ m.write a v) : c.1 = a.toNat ∨ c ∈ m := by
  induction m with
  | nil => simp [Memory.write] at h; simp [h]
  | cons d m ih =>
    obtain ⟨k, x⟩ := d
    simp only [Memory.write] at h
    split at h
    · rcases List.mem_cons.mp h with rfl | h'
      · exact .inl rfl
      · exact .inr h'
    · split at h
      · rename_i hk
        rcases List.mem_cons.mp h with rfl | h'
        · exact .inl hk.symm
        · exact .inr (List.mem_cons_of_mem _ h')
      · rcases List.mem_cons.mp h with rfl | h'
        · exact .inr (by simp)
        · rcases ih h' with h'' | h''
          · exact .inl h''
          · exact .inr (List.mem_cons_of_mem _ h'')

/-- A one-byte write keeps the canonical form. -/
theorem write_wf {m : Memory} (a v : Byte) (h : m.wf) : (m.write a v).wf := by
  refine ⟨?_, fun c hc => ?_⟩
  · induction m with
    | nil => simp [Memory.write]
    | cons d m ih =>
      obtain ⟨k, x⟩ := d
      have hp := List.pairwise_cons.mp h.1
      have ih' := ih ⟨hp.2, fun c hc => h.2 c (List.mem_cons_of_mem _ hc)⟩
      simp only [Memory.write]
      split
      · rename_i hlt
        refine List.pairwise_cons.mpr ⟨fun c hc => ?_, h.1⟩
        rcases List.mem_cons.mp hc with rfl | hc'
        · exact hlt
        · exact Nat.lt_trans hlt (hp.1 c hc')
      · split
        · exact List.pairwise_cons.mpr ⟨fun c hc => hp.1 c hc, hp.2⟩
        · rename_i hlt hne
          refine List.pairwise_cons.mpr ⟨fun c hc => ?_, ih'⟩
          rcases write_mem hc with h1 | h1
          · show k < c.1
            omega
          · exact hp.1 c h1
  · rcases write_mem hc with h1 | h1
    · rw [h1]
      exact a.isLt
    · exact h.2 c h1

/-- A write of a list of bytes keeps the canonical form. -/
theorem writeBytes_wf (bytes : List Byte) : ∀ {m : Memory} (a : Byte), m.wf → (m.writeBytes a bytes).wf := by
  induction bytes with
  | nil => intro m a h; exact h
  | cons b bs ih => intro m a h; exact ih _ (write_wf a b h)

/-- A failed write keeps the canonical form, whichever bytes land. -/
theorem writeLanded_wf (bytes : List Byte) :
    ∀ {m : Memory} (a : Byte) (landed : List Bool), m.wf → (m.writeLanded a bytes landed).wf := by
  induction bytes with
  | nil => intro m a landed h; exact h
  | cons b bs ih =>
    intro m a landed h
    cases landed with
    | nil => exact h
    | cons l ls =>
      refine ih _ ls ?_
      cases l
      · exact h
      · exact write_wf a b h

/-! ### What a read gives -/

@[simp] theorem read_write_same (m : Memory) (a v : Byte) : (m.write a v).read a = some v := by
  induction m with
  | nil => simp [Memory.write, Memory.read]
  | cons c m ih =>
    obtain ⟨k, x⟩ := c
    simp only [Memory.write]
    split
    · simp [Memory.read]
    · split
      · rename_i h
        simp [Memory.read, h]
      · rename_i h
        simp [Memory.read, Ne.symm h, ih]

theorem read_write_other (m : Memory) {a b : Byte} (v : Byte) (h : b ≠ a) : (m.write a v).read b = m.read b := by
  have hn : a.toNat ≠ b.toNat := fun e => h (BitVec.eq_of_toNat_eq e.symm)
  induction m with
  | nil => simp [Memory.write, Memory.read, hn]
  | cons c m ih =>
    obtain ⟨k, x⟩ := c
    simp only [Memory.write]
    split
    · simp [Memory.read, hn]
    · split
      · rename_i hk
        subst hk
        simp [Memory.read, hn]
      · simp [Memory.read, ih]

/-- Address `a + (i + 1)` is address `(a + 1) + i`. -/
theorem addr_succ (a : Byte) (i : Nat) : a + BitVec.ofNat 8 (i + 1) = a + 1#8 + BitVec.ofNat 8 i := by
  apply BitVec.eq_of_toNat_eq
  simp only [BitVec.toNat_add, BitVec.toNat_ofNat]
  omega

/-- Two offsets below 256 give two addresses. -/
theorem addr_inj (a : Byte) {i j : Nat} (hi : i < 256) (hj : j < 256)
    (h : a + BitVec.ofNat 8 i = a + BitVec.ofNat 8 j) : i = j := by
  have h' := congrArg BitVec.toNat h
  simp only [BitVec.toNat_add, BitVec.toNat_ofNat] at h'
  omega

@[simp] theorem addr_zero (a : Byte) : a + BitVec.ofNat 8 0 = a := by simp

/-- An address outside the block of a failed write reads as before. -/
theorem read_writeLanded_outside (bytes : List Byte) :
    ∀ (m : Memory) (a b : Byte) (landed : List Bool),
      (∀ i, i < bytes.length → b ≠ a + BitVec.ofNat 8 i) → (m.writeLanded a bytes landed).read b = m.read b := by
  induction bytes with
  | nil => intro m a b landed _; rfl
  | cons x xs ih =>
    intro m a b landed h
    cases landed with
    | nil => rfl
    | cons l ls =>
      have h0 : b ≠ a := by simpa using h 0 (by simp)
      have hs : ∀ i, i < xs.length → b ≠ a + 1#8 + BitVec.ofNat 8 i := fun i hi => by
        rw [← addr_succ]
        exact h (i + 1) (by simpa using hi)
      simp only [Memory.writeLanded]
      rw [ih _ _ _ _ hs]
      cases l
      · rfl
      · simpa using read_write_other m x h0

/-- Inside the block of a failed write, a byte reads as its new value where it landed and as before where not. -/
theorem read_writeLanded_inside (bytes : List Byte) :
    ∀ (m : Memory) (a : Byte) (landed : List Bool), landed.length = bytes.length → bytes.length ≤ 256 →
      ∀ i, i < bytes.length →
        (m.writeLanded a bytes landed).read (a + BitVec.ofNat 8 i) =
          if landed.getD i false then bytes[i]? else m.read (a + BitVec.ofNat 8 i) := by
  induction bytes with
  | nil => intro m a landed _ _ i hi; simp at hi
  | cons x xs ih =>
    intro m a landed hl hb i hi
    cases landed with
    | nil => simp at hl
    | cons l ls =>
      simp only [List.length_cons] at hl hb hi
      cases i with
      | zero =>
        simp only [Memory.writeLanded]
        rw [read_writeLanded_outside]
        · cases l <;> simp
        · intro j hj e
          have := addr_inj a (i := 0) (j := j + 1) (by omega) (by omega) (by rw [addr_succ]; simpa using e)
          omega
      | succ i =>
        have hne : a + BitVec.ofNat 8 (i + 1) ≠ a := fun e => by
          have := addr_inj a (i := i + 1) (j := 0) (by omega) (by omega) (by simpa using e)
          omega
        have := ih (if l then m.write a x else m) (a + 1#8) ls (by omega) (by omega) i (by omega)
        simp only [Memory.writeLanded]
        rw [addr_succ a i, this, ← addr_succ a i]
        have hr : (if l = true then m.write a x else m).read (a + BitVec.ofNat 8 (i + 1)) =
            m.read (a + BitVec.ofNat 8 (i + 1)) := by
          cases l
          · rfl
          · simpa using read_write_other m x hne
        rw [hr]
        simp

/-- A write of which every byte lands is a completed write. -/
theorem writeLanded_all (bytes : List Byte) :
    ∀ (m : Memory) (a : Byte), m.writeLanded a bytes (List.replicate bytes.length true) = m.writeBytes a bytes := by
  induction bytes with
  | nil => intro m a; rfl
  | cons x xs ih => intro m a; exact ih (m.write a x) (a + 1#8)

/-- What a completed write leaves: the block holds its bytes, and every other address is as before (R48). -/
theorem writeBytes_holdsBlock (m : Memory) (a : Byte) (bytes : List Byte) (h : bytes.length ≤ 256) :
    m.HoldsBlock (m.writeBytes a bytes) a bytes := by
  rw [← writeLanded_all]
  refine ⟨fun i hi => ?_, fun b hb => read_writeLanded_outside bytes m a b _ hb⟩
  rw [read_writeLanded_inside bytes m a _ (by simp) h i hi]
  simp [hi]

/-- What a failed write leaves: each target old or new, and every other address as before (R49). -/
theorem writeLanded_oldOrNew (m : Memory) (a : Byte) (bytes : List Byte) (landed : List Bool)
    (hl : landed.length = bytes.length) (h : bytes.length ≤ 256) :
    m.OldOrNew (m.writeLanded a bytes landed) a bytes := by
  refine ⟨fun i hi => ?_, fun b hb => read_writeLanded_outside bytes m a b _ hb⟩
  rw [read_writeLanded_inside bytes m a _ hl h i hi]
  split
  · exact .inr rfl
  · exact .inl rfl

/-- A write of a list in two parts. -/
theorem writeBytes_append (xs : List Byte) :
    ∀ (m : Memory) (a : Byte) (ys : List Byte),
      m.writeBytes a (xs ++ ys) = (m.writeBytes a xs).writeBytes (a + BitVec.ofNat 8 xs.length) ys := by
  induction xs with
  | nil => intro m a ys; simp [Memory.writeBytes]
  | cons x xs ih =>
    intro m a ys
    simp only [List.cons_append, Memory.writeBytes, List.length_cons]
    rw [ih, ← addr_succ a xs.length]

end Sys2Proof.Machine
end

