-- ==== Sys2Proof/Laws/Transactions.lean ====
section
/-! SUPPORT. What each transaction, and each shape of a command built on them, can do: one lemma per shared operation. -/

namespace Sys2Proof.Machine

/-! ### The free inputs -/

theorem inputsUsed_add (s : State) (j k : Nat) : (s.inputsUsed j).inputsUsed k = s.inputsUsed (j + k) := by
  simp only [State.inputsUsed]
  split
  · simp [Nat.add_assoc]
  · simp [Nat.add_assoc, List.drop_drop]

@[simp] theorem inputsUsed_zero (s : State) : s.inputsUsed 0 = s := by
  simp [State.inputsUsed]

@[simp] theorem completesAt_zero (s : State) : s.completesAt 0 = s.completes := by simp [State.completesAt]

/-- Whether a transaction completes depends on the transport and the free inputs alone. -/
theorem completes_congr {s t : State} (ht : s.transport = t.transport) (hr : s.replies = t.replies)
    (hd : s.drawIndex = t.drawIndex) : s.completes = t.completes := by
  simp only [State.completes, State.scripted, ht, hr, hd]

/-- Which payload bytes of a failed write land depends on the transport and the free inputs alone. -/
theorem lands_congr {s t : State} (ht : s.transport = t.transport) (hr : s.replies = t.replies)
    (hd : s.drawIndex = t.drawIndex) : s.lands = t.lands := by
  funext i
  simp only [State.lands, State.scripted, ht, hr, hd]

/-- What a read draws depends on the transport, the free inputs and the register image. -/
theorem drawn_congr {s t : State} (ht : s.transport = t.transport) (hr : s.replies = t.replies)
    (hd : s.drawIndex = t.drawIndex) (hi : s.image = t.image) (a : Byte) (n : Nat) : s.drawn a n = t.drawn a n := by
  simp only [State.drawn, State.drawnByte, State.scripted, ht, hr, hd, hi]

@[simp] theorem drawn_length (s : State) (a : Byte) (n : Nat) : (s.drawn a n).length = n := by simp [State.drawn]

/-! ### One transaction -/

theorem logTransaction_eq (r : TransactionRecord) (s : State) :
    s.logTransaction r = { s.inputsUsed 1 with hist := s.hist ++ [r] } := by
  simp [State.logTransaction, State.inputsUsed]

/-- A completed write (R48). -/
theorem memWrite_completes {s : State} (a : Byte) (bytes : List Byte) (h : s.completes = true) :
    memWrite a bytes s = ({ s.inputsUsed 1 with
      image := s.image.writeBytes a bytes
      hist := s.hist ++ [writeRecord s.cmdIndex a bytes .ok] }, .ok) := by
  simp [memWrite, logTransaction_eq, h, State.nextStatus, writeRecord]

/-- A failed write (R49). -/
theorem memWrite_fails {s : State} (a : Byte) (bytes : List Byte) (h : s.completes = false) :
    memWrite a bytes s = ({ s.inputsUsed 1 with
      image := s.image.writeLanded a bytes ((List.range bytes.length).map s.lands)
      hist := s.hist ++ [writeRecord s.cmdIndex a bytes .failure] }, .failure) := by
  simp [memWrite, logTransaction_eq, h, State.nextStatus, writeRecord]

/-- A completed read (R47). -/
theorem memRead_completes {s : State} (a : Byte) (n : Nat) (h : s.completes = true) :
    memRead a n s = ({ s.inputsUsed 1 with
      hist := s.hist ++ [readRecord s.cmdIndex a n .ok (s.drawn a n)] }, some (s.drawn a n)) := by
  simp [memRead, logTransaction_eq, h, State.nextStatus, readRecord]

/-- A failed read (R49). -/
theorem memRead_fails {s : State} (a : Byte) (n : Nat) (h : s.completes = false) :
    memRead a n s = ({ s.inputsUsed 1 with
      hist := s.hist ++ [readRecord s.cmdIndex a n .failure []] }, none) := by
  simp [memRead, logTransaction_eq, h, State.nextStatus, readRecord]

/-! ### The shapes of commands -/

theorem withOperands_ok {α : Type} (v : α) (s : State) (k : α → State) : withOperands (.ok v) s k = k v := rfl

theorem withOperands_error {α : Type} (p : PortName) (s : State) (k : α → State) :
    withOperands (.error p) s k = s.ended (.exception (.invalidArgument p)) := by simp [withOperands]

theorem withPairing_same {alarm : AlarmNumber} {mode : MatchMode} (i : Instr) (s k : State)
    (h : mode.alarm = alarm) : withPairing alarm mode i s k = k := by simp [withPairing, h]

theorem withPairing_other {alarm : AlarmNumber} {mode : MatchMode} (i : Instr) (s k : State)
    (h : mode.alarm ≠ alarm) : withPairing alarm mode i s k = s.endedByFault (.contractViolation (encode i)) := by
  simp [withPairing, h]

/-- A GET: decoded where its read completes, not decoded where it fails. -/
theorem readThen_spec (a : Byte) (n : Nat) (dec : List Byte → Result) (s : State) :
    GetByOneRead s a n dec (.next (readThen a n dec s)) := by
  refine ⟨fun h => ⟨by simp, ?_⟩, fun h => ?_⟩
  · simp [readThen, memRead_completes a n h, State.ended, State.inputsUsed]
  · simp [readThen, memRead_fails a n h, State.ended, State.inputsUsed]

/-- A SET by one write. -/
theorem writeOnce_spec (a : Byte) (bytes : List Byte) (s : State) (hl : bytes.length ≤ 256) :
    SetByOneWrite s a bytes (.next (endSet (writeOnce a bytes s))) := by
  refine ⟨fun h => ⟨s.image.writeBytes a bytes, ?_, writeBytes_holdsBlock _ _ _ hl⟩,
    fun h => ⟨s.image.writeLanded a bytes ((List.range bytes.length).map s.lands), ?_,
      writeLanded_oldOrNew _ _ _ _ (by simp) hl⟩⟩
  · simp [writeOnce, memWrite_completes a bytes h, endSet, State.ended, State.inputsUsed]
  · simp [writeOnce, memWrite_fails a bytes h, endSet, State.ended, State.inputsUsed]

theorem registerWrites_cons (k : Nat) (a b : Byte) (bs : List Byte) :
    registerWrites k a (b :: bs) = writeRecord k a [b] .ok :: registerWrites k (a + 1#8) bs := by
  simp only [registerWrites, List.length_cons, List.range_succ_eq_map, List.map_cons, List.map_map]
  congr 1
  · simp
  · apply List.map_congr_left
    intro i _
    simp only [Function.comp, List.getD_cons_succ, Nat.succ_eq_add_one]
    rw [addr_succ a i]

/-- Single-register writes that all complete. -/
theorem writeEach_completes (bytes : List Byte) :
    ∀ (i : Nat) (a : Byte) (s : State), (∀ j, j < bytes.length → s.completesAt j = true) →
      writeEach i a bytes s = ({ s.inputsUsed bytes.length with
        image := s.image.writeBytes a bytes
        hist := s.hist ++ registerWrites s.cmdIndex a bytes }, none) := by
  induction bytes with
  | nil => intro i a s _; simp [writeEach, registerWrites, Memory.writeBytes]
  | cons b bs ih =>
    intro i a s h
    have h0 : s.completes = true := by simpa using h 0 (by simp)
    have hs : ∀ j, j < bs.length → State.completesAt { s.inputsUsed 1 with
        image := s.image.writeBytes a [b]
        hist := s.hist ++ [writeRecord s.cmdIndex a [b] .ok] } j = true := fun j hj => by
      rw [← h (j + 1) (by simpa using hj)]
      refine completes_congr rfl ?_ ?_
      · have := congrArg State.replies (inputsUsed_add s 1 j)
        simpa [Nat.add_comm] using this
      · have := congrArg State.drawIndex (inputsUsed_add s 1 j)
        simpa [Nat.add_comm] using this
    simp only [writeEach, memWrite_completes a [b] h0]
    rw [ih (i + 1) (a + 1#8) _ hs]
    rw [List.length_cons, registerWrites_cons, Nat.add_comm bs.length 1, ← inputsUsed_add s 1 bs.length]
    simp only [State.inputsUsed, Memory.writeBytes]
    simp

/-- Single-register writes of which number `k` is the first that fails: `k` writes, then the failed one. -/
theorem writeEach_fails (bytes : List Byte) :
    ∀ (i : Nat) (a : Byte) (s : State) (k : Nat), k < bytes.length →
      (∀ j, j < k → s.completesAt j = true) → s.completesAt k = false →
      writeEach i a bytes s = ({ s.inputsUsed (k + 1) with
        image := (s.image.writeBytes a (bytes.take k)).writeLanded (a + BitVec.ofNat 8 k) [bytes.getD k 0#8]
          [(s.inputsUsed k).lands 0]
        hist := s.hist ++ registerWrites s.cmdIndex a (bytes.take k) ++
          [writeRecord s.cmdIndex (a + BitVec.ofNat 8 k) [bytes.getD k 0#8] .failure] },
        some (.transportFailure (i + k) (a + BitVec.ofNat 8 k))) := by
  induction bytes with
  | nil => intro i a s k hk; simp at hk
  | cons b bs ih =>
    intro i a s k hk h hf
    cases k with
    | zero =>
      have h0 : s.completes = false := by simpa using hf
      simp [writeEach, memWrite_fails a [b] h0, Memory.writeBytes, registerWrites]
    | succ k =>
      have h0 : s.completes = true := by simpa using h 0 (by simp)
      have hc : ∀ j, State.completesAt { s.inputsUsed 1 with
          image := s.image.writeBytes a [b]
          hist := s.hist ++ [writeRecord s.cmdIndex a [b] .ok] } j = s.completesAt (j + 1) := fun j => by
        refine completes_congr rfl ?_ ?_
        · have := congrArg State.replies (inputsUsed_add s 1 j)
          simpa [Nat.add_comm] using this
        · have := congrArg State.drawIndex (inputsUsed_add s 1 j)
          simpa [Nat.add_comm] using this
      simp only [writeEach, memWrite_completes a [b] h0]
      rw [ih (i + 1) (a + 1#8) _ k (by simpa using hk)
        (fun j hj => by rw [hc]; exact h (j + 1) (by omega)) (by rw [hc]; exact hf)]
      have hadd := inputsUsed_add s 1 (k + 1)
      simp only [Nat.add_comm 1] at hadd
      have hl : State.lands (State.inputsUsed { s.inputsUsed 1 with
          image := s.image.writeBytes a [b]
          hist := s.hist ++ [writeRecord s.cmdIndex a [b] .ok] } k) = (s.inputsUsed (k + 1)).lands := by
        refine lands_congr rfl ?_ ?_
        · have := congrArg State.replies (inputsUsed_add s 1 k)
          simpa [Nat.add_comm] using this
        · have := congrArg State.drawIndex (inputsUsed_add s 1 k)
          simpa [Nat.add_comm] using this
      rw [hl]
      simp only [List.take_succ_cons, registerWrites_cons, List.getD_cons_succ, addr_succ a k, ← hadd]
      simp [State.inputsUsed, Memory.writeBytes, Nat.add_assoc, Nat.add_comm 1]

/-- A SET by one write a register. -/
theorem writeEach_spec (a : Byte) (bytes : List Byte) (s : State) (hl : bytes.length ≤ 256) :
    SetByRegisterWrites s a bytes (.next (endSet (writeEach 0 a bytes s))) := by
  refine ⟨fun h => ⟨s.image.writeBytes a bytes, ?_, writeBytes_holdsBlock _ _ _ hl⟩, fun k hk h hf =>
    ⟨s.image.writeBytes a (bytes.take k),
      (s.image.writeBytes a (bytes.take k)).writeLanded (a + BitVec.ofNat 8 k) [bytes.getD k 0#8]
        [(s.inputsUsed k).lands 0], ?_, writeBytes_holdsBlock _ _ _ (by simp; omega),
      writeLanded_oldOrNew _ _ _ _ rfl (by simp)⟩⟩
  · rw [writeEach_completes bytes 0 a s h]
    rfl
  · rw [writeEach_fails bytes 0 a s k hk h hf, endSet, raise_transportFailure, Nat.zero_add]
    rfl

end Sys2Proof.Machine
end

