-- ==== Sys2Proof/Laws/Effects.lean ====
section
/-! SUPPORT. Everything a step can do, said once: `Progress` is what transactions do inside a command, `Effect` is what a
whole command does. -/

namespace Sys2Proof.Machine

/-! ### Inside a command -/

/-- Transactions change only the history, the register image in 0x00..0x0D, and the free inputs. -/
structure Progress (s t : State) : Prop where
  pending : t.pending = s.pending
  cmdIndex : t.cmdIndex = s.cmdIndex
  outcomes : t.outcomes = s.outcomes
  faults : t.faults = s.faults
  transport : t.transport = s.transport
  coalesce : t.coalesce = s.coalesce
  hist : ∃ rs, t.hist = s.hist ++ rs ∧ ∀ r ∈ rs, r.inAccessTable ∧ r.cmdIndex = s.cmdIndex
  image_wf : s.image.wf → t.image.wf
  image_frame : ∀ a : Byte, 0x0D#8 < a → t.image.read a = s.image.read a

theorem Progress.refl (s : State) : Progress s s :=
  ⟨rfl, rfl, rfl, rfl, rfl, rfl, ⟨[], by simp⟩, id, fun _ _ => rfl⟩

theorem Progress.trans {s t u : State} (h : Progress s t) (h' : Progress t u) : Progress s u := by
  obtain ⟨rs, hr, hrs⟩ := h.hist
  obtain ⟨rs', hr', hrs'⟩ := h'.hist
  refine ⟨h'.pending.trans h.pending, h'.cmdIndex.trans h.cmdIndex, h'.outcomes.trans h.outcomes,
    h'.faults.trans h.faults, h'.transport.trans h.transport, h'.coalesce.trans h.coalesce,
    ⟨rs ++ rs', by rw [hr', hr, List.append_assoc], fun r hm => ?_⟩, fun w => h'.image_wf (h.image_wf w),
    fun a ha => (h'.image_frame a ha).trans (h.image_frame a ha)⟩
  rcases List.mem_append.mp hm with hm | hm
  · exact hrs r hm
  · rw [← h.cmdIndex]
    exact hrs' r hm

/-- The writes of R53. -/
def writeInTable (a : Byte) (bytes : List Byte) : Prop :=
  (a = 0x00#8 ∧ bytes.length = 7) ∨ (0x07#8 ≤ a ∧ a ≤ 0x0D#8 ∧ bytes.length = 1) ∨
  (a = 0x07#8 ∧ bytes.length = 4) ∨ (a = 0x0B#8 ∧ bytes.length = 3)

/-- An address above 0x0D is in no block that is written. -/
theorem outside_of_writeInTable {a : Byte} {bytes : List Byte} (h : writeInTable a bytes) {b : Byte}
    (hb : 0x0D#8 < b) (i : Nat) (hi : i < bytes.length) : b ≠ a + BitVec.ofNat 8 i := by
  intro e
  have e' := congrArg BitVec.toNat e
  simp only [BitVec.toNat_add, BitVec.toNat_ofNat] at e'
  have hb' : 13 < b.toNat := hb
  rcases h with ⟨rfl, h⟩ | ⟨h1, h2, h⟩ | ⟨rfl, h⟩ | ⟨rfl, h⟩
  · have : (0x00#8 : Byte).toNat = 0 := rfl
    omega
  · have h2' : a.toNat ≤ 13 := h2
    omega
  · have : (0x07#8 : Byte).toNat = 7 := rfl
    omega
  · have : (0x0B#8 : Byte).toNat = 11 := rfl
    omega

theorem memWrite_progress {s : State} {a : Byte} {bytes : List Byte} (h : writeInTable a bytes) :
    Progress s (memWrite a bytes s).1 := by
  cases hc : s.completes
  · rw [memWrite_fails a bytes hc]
    exact ⟨rfl, rfl, rfl, rfl, rfl, rfl, ⟨[_], rfl, fun r hr => by
        rw [List.mem_singleton.mp hr]
        exact ⟨⟨rfl, h⟩, rfl⟩⟩, writeLanded_wf bytes a _,
      fun b hb => read_writeLanded_outside bytes _ a b _ fun i hi => outside_of_writeInTable h hb i hi⟩
  · rw [memWrite_completes a bytes hc]
    exact ⟨rfl, rfl, rfl, rfl, rfl, rfl, ⟨[_], rfl, fun r hr => by
        rw [List.mem_singleton.mp hr]
        exact ⟨⟨rfl, h⟩, rfl⟩⟩, writeBytes_wf bytes a,
      fun b hb => by
        rw [← writeLanded_all]
        exact read_writeLanded_outside bytes _ a b _ fun i hi => outside_of_writeInTable h hb i hi⟩

theorem memRead_progress {s : State} {a : Byte} {n : Nat} (h : (a = 0x00#8 ∧ n = 7) ∨ (a = 0x11#8 ∧ n = 2)) :
    Progress s (memRead a n s).1 := by
  cases hc : s.completes
  · rw [memRead_fails a n hc]
    exact ⟨rfl, rfl, rfl, rfl, rfl, rfl, ⟨[_], rfl, fun r hr => by
      rw [List.mem_singleton.mp hr]
      exact ⟨⟨h, rfl⟩, rfl⟩⟩, id, fun _ _ => rfl⟩
  · rw [memRead_completes a n hc]
    exact ⟨rfl, rfl, rfl, rfl, rfl, rfl, ⟨[_], rfl, fun r hr => by
      rw [List.mem_singleton.mp hr]
      exact ⟨⟨h, drawn_length s a n⟩, rfl⟩⟩, id, fun _ _ => rfl⟩

theorem writeOnce_progress {s : State} {a : Byte} {bytes : List Byte} (h : writeInTable a bytes) :
    Progress s (writeOnce a bytes s).1 := by
  have hp := memWrite_progress (s := s) h
  simp only [writeOnce]
  split
  all_goals
    rename_i heq
    rw [heq] at hp
    exact hp

theorem writeEach_progress (bytes : List Byte) :
    ∀ (i : Nat) (a : Byte) (s : State), 7 ≤ a.toNat → a.toNat + bytes.length ≤ 14 →
      Progress s (writeEach i a bytes s).1 := by
  induction bytes with
  | nil => intro i a s _ _; exact Progress.refl s
  | cons b bs ih =>
    intro i a s h7 hl
    simp only [List.length_cons] at hl
    have h : writeInTable a [b] := .inr (.inl ⟨show 7 ≤ a.toNat from h7, show a.toNat ≤ 13 by omega, rfl⟩)
    have hp := memWrite_progress (s := s) h
    have ha : (a + 1#8).toNat = a.toNat + 1 := by
      rw [BitVec.toNat_add, show (1#8 : Byte).toNat = 1 from rfl]
      omega
    simp only [writeEach]
    split
    all_goals
      rename_i t heq
      rw [heq] at hp
    · exact hp.trans (ih (i + 1) (a + 1#8) t (by omega) (by omega))
    · exact hp

theorem writeBlock_progress {s : State} {a : Byte} {bytes : List Byte} (h : writeInTable a bytes)
    (h7 : 7 ≤ a.toNat) (hl : a.toNat + bytes.length ≤ 14) : Progress s (writeBlock a bytes s).1 := by
  simp only [writeBlock]
  split
  · exact writeOnce_progress h
  · exact writeEach_progress bytes 0 a s h7 hl

/-! ### A whole command -/

/-- What a command does: its outcome joins the outcomes, and the fault log where it is a fault; its transactions are of R53
and changed registers in 0x00..0x0D only; the index moves by 1 and the next command is up. -/
structure Effect (s t : State) : Prop where
  pending : t.pending = s.pending.tail
  cmdIndex : t.cmdIndex = s.cmdIndex + 1
  transport : t.transport = s.transport
  coalesce : t.coalesce = s.coalesce
  outcome : ∃ o : CommandOutcome, o.inRange ∧ t.outcomes = s.outcomes ++ [o] ∧
    t.faults = s.faults ++ faultsOf s.cmdIndex [o]
  hist : ∃ rs, t.hist = s.hist ++ rs ∧ ∀ r ∈ rs, r.inAccessTable ∧ r.cmdIndex = s.cmdIndex
  image_wf : s.image.wf → t.image.wf
  image_frame : ∀ a : Byte, 0x0D#8 < a → t.image.read a = s.image.read a

theorem Progress.succeed {s t : State} (h : Progress s t) {v : Result} (hv : v.inRange) : Effect s (succeed v t) := by
  refine ⟨?_, ?_, h.transport, h.coalesce, ⟨.ok v, hv, ?_, ?_⟩, h.hist, h.image_wf, h.image_frame⟩
  · simp [h.pending]
  · simp [h.cmdIndex]
  · simp [h.outcomes]
  · simp [h.faults, faultsOf]

theorem Progress.raise {s t : State} (h : Progress s t) (e : Exc) : Effect s (raise e t) := by
  refine ⟨?_, ?_, h.transport, h.coalesce, ⟨.exception e, trivial, ?_, ?_⟩, h.hist, h.image_wf, h.image_frame⟩
  · simp [Machine.raise, h.pending]
  · simp [Machine.raise, h.cmdIndex]
  · simp [Machine.raise, h.outcomes]
  · simp [Machine.raise, h.faults, h.cmdIndex, faultsOf]

theorem endSet_effect {s : State} {p : State × Option Exc} (h : Progress s p.1) : Effect s (endSet p) := by
  obtain ⟨t, e⟩ := p
  cases e with
  | none => exact h.succeed trivial
  | some e => exact h.raise e

theorem readThen_effect {s : State} {a : Byte} {n : Nat} {dec : List Byte → Result}
    (h : (a = 0x00#8 ∧ n = 7) ∨ (a = 0x11#8 ∧ n = 2)) (hd : ∀ bytes, (dec bytes).inRange) :
    Effect s (readThen a n dec s) := by
  have hp := memRead_progress (s := s) h
  simp only [readThen]
  split
  all_goals
    rename_i heq
    rw [heq] at hp
  · exact hp.succeed (hd _)
  · exact hp.raise _

theorem withOperands_effect {α : Type} {s : State} {operands : Except PortName α} {k : α → State}
    (h : ∀ v, operands = .ok v → Effect s (k v)) : Effect s (withOperands operands s k) := by
  cases hv : operands with
  | error p => exact (Progress.refl s).raise _
  | ok v => exact h v hv

theorem withPairing_effect {alarm : AlarmNumber} {mode : MatchMode} {i : Instr} {s k : State} (h : Effect s k) :
    Effect s (withPairing alarm mode i s k) := by
  simp only [withPairing]
  split
  · exact h
  · exact (Progress.refl s).raise _

/-- A command that issues no transaction and returns a result. -/
theorem pure_effect {s : State} {v : Result} (hv : v.inRange) : Effect s (succeed v s) := (Progress.refl s).succeed hv

/-- Every instruction answers a next state, and what it did is an `Effect`. -/
theorem exec_effect (i : Instr) (s : State) : ∃ t, exec i s = .next t ∧ Effect s t := by
  have legal : ∀ c : Byte, modeIsLegal c = true ↔ ∃ m : MatchMode, modeCode m = c := modeIsLegal_iff
  cases i with
  | bcdEnc => exact ⟨_, rfl, withOperands_effect fun _ _ => pure_effect trivial⟩
  | bcdDec => exact ⟨_, rfl, withOperands_effect fun b _ => pure_effect (bcdDec_le b)⟩
  | timeEnc => exact ⟨_, rfl, withOperands_effect fun t _ => pure_effect (.inl ⟨rfl, timeBytes_length t⟩)⟩
  | timeDec => exact ⟨_, rfl, withOperands_effect fun bytes _ => pure_effect (timeOfBytes_inRange bytes)⟩
  | timeGet => exact ⟨_, rfl, readThen_effect (.inl ⟨rfl, rfl⟩) timeOfBytes_inRange⟩
  | timeSet => exact ⟨_, rfl, withOperands_effect fun t _ => endSet_effect (writeOnce_progress (.inl ⟨rfl, rfl⟩))⟩
  | alarm1Enc mode =>
    exact ⟨_, rfl, withPairing_effect (withOperands_effect fun f _ => pure_effect (.inr (.inl ⟨rfl, rfl⟩)))⟩
  | alarm2Enc mode =>
    exact ⟨_, rfl, withPairing_effect (withOperands_effect fun f _ => pure_effect (.inr (.inr ⟨rfl, rfl⟩)))⟩
  | alarm1Dec =>
    exact ⟨_, rfl, withOperands_effect fun bytes _ => pure_effect ⟨alarm1OfBytes_inRange bytes, legal _⟩⟩
  | alarm2Dec =>
    exact ⟨_, rfl, withOperands_effect fun bytes _ => pure_effect ⟨alarm2OfBytes_inRange bytes, legal _⟩⟩
  | alarm1Set mode =>
    exact ⟨_, rfl, withPairing_effect (withOperands_effect fun f _ =>
      endSet_effect (writeBlock_progress (.inr (.inr (.inl ⟨rfl, rfl⟩))) (by decide) (by simp)))⟩
  | alarm2Set mode =>
    exact ⟨_, rfl, withPairing_effect (withOperands_effect fun f _ =>
      endSet_effect (writeBlock_progress (.inr (.inr (.inr ⟨rfl, rfl⟩))) (by decide) (by simp)))⟩
  | tempDec => exact ⟨_, rfl, withOperands_effect fun bytes _ => pure_effect (temperatureOfBytes_inRange bytes)⟩
  | tempGet => exact ⟨_, rfl, readThen_effect (.inr ⟨rfl, rfl⟩) temperatureOfBytes_inRange⟩

/-- What a step can do: nothing where no command is presented, and an `Effect` otherwise. -/
theorem step_cases (s : State) :
    (s.pending = [] ∧ step s = .next s) ∨ (∃ t, step s = .next t ∧ Effect s t) := by
  cases hp : s.pending with
  | nil => exact .inl ⟨rfl, by simp [step, State.fetch, hp]⟩
  | cons c rest =>
    refine .inr ?_
    simp only [step, State.fetch, hp, List.head?_cons]
    split
    · exact exec_effect _ s
    · exact ⟨_, rfl, (Progress.refl s).raise _⟩
    · exact ⟨_, rfl, (Progress.refl s).raise _⟩

end Sys2Proof.Machine
end

