-- ==== Sys2Proof/Laws/PerInstr.lean ====
section
/-! SUPPORT. Statements made per instruction, one lemma per constructor of `Instr`. Family `TableRow`: a well-formed
instruction's word lies in its own row of the opcode table (30_encoding.md R82). -/

namespace Sys2Proof.Laws.TableRow

/-- The masked word is the row's match. -/
def Statement (i : Instr) : Prop :=
  i.wellFormed = true → encode i &&& (tableRow i).2 = (tableRow i).1

theorem bcdEnc : Statement .bcdEnc := fun _ => rfl
theorem bcdDec : Statement .bcdDec := fun _ => rfl
theorem timeEnc : Statement .timeEnc := fun _ => rfl
theorem timeDec : Statement .timeDec := fun _ => rfl
theorem timeGet : Statement .timeGet := fun _ => rfl
theorem timeSet : Statement .timeSet := fun _ => rfl
theorem alarm1Enc (mode : MatchMode) : Statement (.alarm1Enc mode) := by
  intro h
  cases mode <;> first | rfl | cases h
theorem alarm2Enc (mode : MatchMode) : Statement (.alarm2Enc mode) := by
  intro h
  cases mode <;> first | rfl | cases h
theorem alarm1Dec : Statement .alarm1Dec := fun _ => rfl
theorem alarm2Dec : Statement .alarm2Dec := fun _ => rfl
theorem alarm1Set (mode : MatchMode) : Statement (.alarm1Set mode) := by
  intro h
  cases mode <;> first | rfl | cases h
theorem alarm2Set (mode : MatchMode) : Statement (.alarm2Set mode) := by
  intro h
  cases mode <;> first | rfl | cases h
theorem tempDec : Statement .tempDec := fun _ => rfl
theorem tempGet : Statement .tempGet := fun _ => rfl

end Sys2Proof.Laws.TableRow
end

