-- ==== Sys2Proof/Tests/Slice0.lean ====
section
/-! SUPPORT. The model's own tests: the WellFormed smoke, decoding of words written out from 30_encoding.md R71 and R82, one
step on small states with results from 95_test_vectors.md and the rules' examples, and the witnesses that the statements'
hypotheses can be met. -/

namespace Sys2Proof.Tests

open Sys2Proof.Machine

/-! ### Helpers -/

/-- A state with one command presented, after reset but for the transport, its replies and the image. -/
def presented (w : Word) (p : Ports) (tr : Transport := .simulator) (rs : List Reply := []) (image : Memory := []) :
    State :=
  { State.reset with pending := [{ word := w, ports := p }], transport := tr, replies := rs, image := image }

/-- The state a step answers; the state itself where it answers none. -/
def stepped (s : State) : State :=
  match step s with
  | .next t => t
  | .fault _ => s
  | .refused _ => s

/-- The outcome of the one command of a `presented` state. -/
def outcomeOf (s : State) : Option CommandOutcome := (stepped s).outcomes.head?

/-- What the transport is sent by the one command of a `presented` state. -/
def sentBy (s : State) : List (List Byte) := (stepped s).hist.map TransactionRecord.sent

/-- The fields of the examples of 42_alarm.md R154, R156. -/
def fields1 : Ports := { seconds := some 0, minutes := some 30, hours := some 14, dayOrDate := some 0 }

/-- The fields of the V-ALARM table. -/
def fieldsV : Ports := { seconds := some 5, minutes := some 30, hours := some 14, dayOrDate := some 3 }

/-- The timestamp of the example of 41_time.md R123. -/
def leapDay : Timestamp := ⟨2024, 2, 29, 13, 45, 30, 4⟩

/-- The time block of that example. -/
def leapDayBytes : List Byte := [0x30#8, 0x45#8, 0x13#8, 0x05#8, 0x29#8, 0x82#8, 0x24#8]

/-! ### WellFormed: an ill-formed term for each check -/

theorem test_wf_alarm1Enc_refuses_mode_of_alarm2 : (Instr.alarm1Enc .a2MatchHours).wellFormed = false := by decide
theorem test_wf_alarm2Enc_refuses_mode_of_alarm1 : (Instr.alarm2Enc .a1EverySecond).wellFormed = false := by decide
theorem test_wf_alarm1Set_refuses_mode_of_alarm2 : (Instr.alarm1Set .a2MatchSeconds).wellFormed = false := by decide
theorem test_wf_alarm2Set_refuses_mode_of_alarm1 : (Instr.alarm2Set .a1MatchDay).wellFormed = false := by decide
theorem test_wf_accepts_own_modes :
    (Instr.alarm1Enc .a1MatchDate).wellFormed = true ∧ (Instr.alarm2Set .a2MatchDate).wellFormed = true := by decide

/-! ### Decoding: words written bit by bit from R71 and R82 -/

theorem test_decode_bcdEnc : decode 0b0001000000000000#16 = .operation .bcdEnc := by decide
theorem test_decode_bcdDec : decode 0b0010000000000000#16 = .operation .bcdDec := by decide
theorem test_decode_timeEnc : decode 0b0011000000000000#16 = .operation .timeEnc := by decide
theorem test_decode_timeDec : decode 0b0100000000000000#16 = .operation .timeDec := by decide
theorem test_decode_timeGet : decode 0b0101000000000000#16 = .operation .timeGet := by decide
theorem test_decode_timeSet : decode 0b0110000000000000#16 = .operation .timeSet := by decide
theorem test_decode_alarm1Enc : decode 0b0111000000001110#16 = .operation (.alarm1Enc .a1MatchSeconds) := by decide
theorem test_decode_alarm2Enc : decode 0b0111000110001100#16 = .operation (.alarm2Enc .a2MatchMinutes) := by decide
theorem test_decode_alarm1Dec : decode 0b1000000000000000#16 = .operation .alarm1Dec := by decide
theorem test_decode_alarm2Dec : decode 0b1000000110000000#16 = .operation .alarm2Dec := by decide
theorem test_decode_alarm1Set : decode 0b1001000000010000#16 = .operation (.alarm1Set .a1MatchDay) := by decide
theorem test_decode_alarm2Set : decode 0b1001000110010000#16 = .operation (.alarm2Set .a2MatchDay) := by decide
theorem test_decode_tempDec : decode 0b1010000000000000#16 = .operation .tempDec := by decide
theorem test_decode_tempGet : decode 0b1011000000000000#16 = .operation .tempGet := by decide

/-- V-ALARM: every legal mode's word. -/
theorem test_decode_every_mode :
    decode 0x700F#16 = .operation (.alarm1Enc .a1EverySecond) ∧ decode 0x700E#16 = .operation (.alarm1Enc .a1MatchSeconds) ∧
    decode 0x700C#16 = .operation (.alarm1Enc .a1MatchMinutes) ∧ decode 0x7008#16 = .operation (.alarm1Enc .a1MatchHours) ∧
    decode 0x7000#16 = .operation (.alarm1Enc .a1MatchDate) ∧ decode 0x7010#16 = .operation (.alarm1Enc .a1MatchDay) ∧
    decode 0x718E#16 = .operation (.alarm2Enc .a2MatchSeconds) ∧ decode 0x718C#16 = .operation (.alarm2Enc .a2MatchMinutes) ∧
    decode 0x7188#16 = .operation (.alarm2Enc .a2MatchHours) ∧ decode 0x7180#16 = .operation (.alarm2Enc .a2MatchDate) ∧
    decode 0x7190#16 = .operation (.alarm2Enc .a2MatchDay) := by decide

/-- V-DECODE: the illegal words. -/
theorem test_decode_illegal :
    decode 0x0000#16 = .illegalCommand ∧ decode 0xC000#16 = .illegalCommand ∧ decode 0xF000#16 = .illegalCommand ∧
    decode 0x1200#16 = .illegalCommand ∧ decode 0x1001#16 = .illegalCommand ∧ decode 0x5100#16 = .illegalCommand ∧
    decode 0x8100#16 = .illegalCommand ∧ decode 0x8080#16 = .illegalCommand := by decide

/-- V-ALARM: the contract-violating words. -/
theorem test_decode_contract :
    decode 0x708C#16 = .contractViolation ∧ decode 0x7100#16 = .contractViolation ∧ decode 0x7003#16 = .contractViolation ∧
    decode 0x718F#16 = .contractViolation ∧ decode 0x7028#16 = .contractViolation := by decide

theorem test_decodeTableWord :
    decodeTableWord 16 0x9180 = some (.alarm2Set .a2MatchDate) ∧ decodeTableWord 16 0x0000 = none := by decide

theorem test_withFetchWord_runs_the_word :
    outcomeOf (State.reset.withFetchWord 16 0x1000) = some (.exception (.invalidArgument .n)) := by decide

/-- R82: no two rows of the opcode table overlap: their matches differ on a bit both masks fix. -/
theorem test_table_rows_are_disjoint :
    ([.bcdEnc, .bcdDec, .timeEnc, .timeDec, .timeGet, .timeSet, .alarm1Enc .a1MatchDate, .alarm2Enc .a2MatchDate,
      .alarm1Dec, .alarm2Dec, .alarm1Set .a1MatchDate, .alarm2Set .a2MatchDate, .tempDec, .tempGet] : List Instr).Pairwise
      fun i j => ((tableRow i).1 ^^^ (tableRow j).1) &&& (tableRow i).2 &&& (tableRow j).2 ≠ 0 := by decide

/-! ### One step, expected results from 95_test_vectors.md and the rules' examples -/

/-- V-BCD. -/
theorem test_bcdEnc_wraps : outcomeOf (presented 0x1000#16 { n := some 1000 }) = some (.ok (.byte 0x72#8)) := by decide
theorem test_bcdEnc_negative : outcomeOf (presented 0x1000#16 { n := some (-10) }) = some (.ok (.byte 0x86#8)) := by decide
theorem test_bcdDec_valid : outcomeOf (presented 0x2000#16 { b := some 0x59#8 }) = some (.ok (.nat 59)) := by decide
theorem test_bcdDec_invalid : outcomeOf (presented 0x2000#16 { b := some 0x1F#8 }) = some (.ok (.nat 25)) := by decide

/-- V-TIME. -/
theorem test_timeEnc_leapDay :
    outcomeOf (presented 0x3000#16 { ts := some leapDay.toPort }) = some (.ok (.block 0x00#8 leapDayBytes)) := by decide
theorem test_timeEnc_year_1899 :
    outcomeOf (presented 0x3000#16 { ts := some (Timestamp.toPort ⟨1899, 12, 31, 0, 0, 0, 0⟩) }) =
      some (.ok (.block 0x00#8 [0x00#8, 0x00#8, 0x00#8, 0x01#8, 0x31#8, 0x12#8, 0x95#8])) := by decide
theorem test_timeDec_nothing_validated :
    outcomeOf (presented 0x4000#16 { buf := some [0xFF#8, 0xFF#8, 0xFF#8, 0xFF#8, 0xFF#8, 0xFF#8, 0xFF#8] }) =
      some (.ok (.timestamp ⟨2165, 25, 165, 165, 165, 165, 164⟩)) := by decide
/-- P5, command 3. -/
theorem test_timeDec_six_bytes :
    outcomeOf (presented 0x4000#16 { buf := some [0x00#8, 0x00#8, 0x00#8, 0x01#8, 0x01#8, 0x01#8] }) =
      some (.exception (.invalidArgument .buf)) := by decide
/-- P1, command 0. -/
theorem test_timeSet_sends_address_and_block :
    sentBy (presented 0x6000#16 { ts := some leapDay.toPort }) = [0x00#8 :: leapDayBytes] := by decide
/-- V-DECODE, last row. -/
theorem test_timeSet_write_fails :
    outcomeOf (presented 0x6000#16 { ts := some leapDay.toPort } .device [.fails []]) =
      some (.exception (.transportFailure 0 0x00#8)) := by decide
/-- The draw of a completed read, decoded (R126). -/
theorem test_timeGet_decodes_the_draw :
    outcomeOf (presented 0x5000#16 {} .device [.completes leapDayBytes]) = some (.ok (.timestamp leapDay)) := by decide
/-- S6. -/
theorem test_timeGet_read_fails :
    outcomeOf (presented 0x5000#16 {} .device [.fails []]) = some (.exception (.transportFailure 0 0x00#8)) := by decide

/-- V-ALARM and the examples of R154, R155. -/
theorem test_alarm1Enc_hours :
    outcomeOf (presented 0x7008#16 { fields1 with seconds := none }) =
      some (.ok (.block 0x07#8 [0x00#8, 0x30#8, 0x14#8, 0x80#8])) := by decide
theorem test_alarm1Enc_day :
    outcomeOf (presented 0x7010#16 fieldsV) = some (.ok (.block 0x07#8 [0x05#8, 0x30#8, 0x14#8, 0x43#8])) := by decide
theorem test_alarm2Enc_seconds :
    outcomeOf (presented 0x718E#16 fieldsV) = some (.ok (.block 0x0B#8 [0xB0#8, 0x94#8, 0x83#8])) := by decide
theorem test_alarm2Enc_hours :
    outcomeOf (presented 0x7188#16 fieldsV) = some (.ok (.block 0x0B#8 [0x30#8, 0x14#8, 0x83#8])) := by decide
theorem test_alarm1Dec_illegal_pattern :
    outcomeOf (presented 0x8000#16 { buf := some [0x80#8, 0x80#8, 0x00#8, 0x00#8] }) =
      some (.ok (.alarm ⟨.one, 0x03#8, some 0, 0, 0, 0⟩ false)) := by decide
theorem test_alarm1Dec_hours :
    outcomeOf (presented 0x8000#16 { buf := some [0x00#8, 0x30#8, 0x14#8, 0x80#8] }) =
      some (.ok (.alarm ⟨.one, 0x08#8, some 0, 30, 14, 0⟩ true)) := by decide
theorem test_alarm2Dec_day :
    outcomeOf (presented 0x8180#16 { buf := some [0x15#8, 0x07#8, 0x43#8] }) =
      some (.ok (.alarm ⟨.two, 0x90#8, none, 15, 7, 3⟩ true)) := by decide
/-- P3, command 0. -/
theorem test_alarm1Set_four_writes :
    sentBy (presented 0x9008#16 fields1) = [[0x07#8, 0x00#8], [0x08#8, 0x30#8], [0x09#8, 0x14#8], [0x0A#8, 0x80#8]] := by
  decide
/-- P5, command 0, with the failed byte not landing: the third register keeps its old byte, the fourth is not written. -/
theorem test_alarm1Set_third_write_fails :
    (stepped (presented 0x9008#16 fields1 .simulator [.completes [], .completes [], .fails [false]]
      [(0x07, 0x01#8), (0x08, 0x02#8), (0x09, 0x03#8), (0x0A, 0x04#8)])).image =
      [(0x07, 0x00#8), (0x08, 0x30#8), (0x09, 0x03#8), (0x0A, 0x04#8)] := by decide
/-- P3 with ALARM_COALESCE. -/
theorem test_alarm2Set_coalesced :
    sentBy { presented 0x9190#16 { minutes := some 15, hours := some 7, dayOrDate := some 3 } with coalesce := true } =
      [[0x0B#8, 0x15#8, 0x07#8, 0x43#8]] := by decide

/-- V-TEMP. -/
theorem test_tempDec_negative :
    outcomeOf (presented 0xA000#16 { buf := some [0xFF#8, 0x40#8] }) = some (.ok (.temperature ⟨-3⟩)) := by decide
theorem test_tempDec_maximum :
    outcomeOf (presented 0xA000#16 { buf := some [0x7F#8, 0xC0#8] }) = some (.ok (.temperature ⟨511⟩)) := by decide
/-- P4, command 0. -/
theorem test_tempGet_from_image :
    outcomeOf (presented 0xB000#16 {} .simulator [] [(0x11, 0xE7#8), (0x12, 0x80#8)]) =
      some (.ok (.temperature ⟨-98⟩)) := by decide

/-- P5, commands 1 and 2: faults are recorded with their index and the block goes on. -/
theorem test_faults_are_recorded :
    (stepped (stepped { presented 0x708C#16 fields1 with
      pending := [{ word := 0x708C#16, ports := fields1 }, { word := 0x0000#16, ports := {} }] })).faults =
      [⟨0, .contractViolation 0x708C#16⟩, ⟨1, .illegalCommand 0x0000#16⟩] := by decide

/-- S4: a table whose MatchHours code is 0x04 gives the source's literal bytes (90_conflicts.md C2). -/
theorem test_literal_mask_bytes : alarm1Bytes 0x04#8 ⟨0, 30, 14, 0⟩ = [0x00#8, 0x30#8, 0x94#8, 0x00#8] := by decide

/-! ### The assembler (R79, R80, Part 3 of 95_test_vectors.md) -/

theorem test_read_alarm_line :
    readLine "ALARM.SET 1, A1.MATCH_HOURS, 0, 30, 14, 0  ; P3".toList = .line (.alarm1Set 0x08#8 0 30 14 0) := by decide
theorem test_read_short_alarm_line :
    readLine "ALARM.ENC 1, 0x8C, 30, 14, 0".toList = .line (.alarm1EncNoSeconds 0x8C#8 30 14 0) := by decide
theorem test_read_time_line :
    readLine "TIME.SET 2024, 1, 1, 0, 0, 0, -1".toList = .line (.timeSet ⟨2024, 1, 1, 0, 0, 0, -1⟩) := by decide
theorem test_read_byte_line : readLine "TEMP.DEC 25, 0b01000000".toList = .line (.tempDec [0x19#8, 0x40#8]) := by decide
theorem test_assembled_word : (AsmLine.alarm2Set 0x90#8 15 7 3).assemble.word = 0x9190#16 := by decide

/-! ### Witnesses: each statement's hypotheses are met together by a concrete state and operands -/

theorem witness_DecodeOfEncode : (Instr.alarm1Set .a1EverySecond).wellFormed = true := by decide
theorem witness_EncodeOfDecode : decode 0x9190#16 = .operation (.alarm2Set .a2MatchDay) := by decide
theorem witness_ModeCodesKeepTheirShape :
    MatchMode.a2MatchSeconds.alarm = .two ∧ modeCode .a1MatchDate = modeCode .a1MatchDate := by decide
theorem witness_StepRunsTheDecodedCommand :
    (presented 0xB000#16 {}).pending = { word := 0xB000#16, ports := {} } :: [] ∧ decode 0xB000#16 = .operation .tempGet := by
  decide
theorem witness_StepRunsTheEncodedInstruction :
    (Instr.alarm2Enc .a2MatchDay).wellFormed = true ∧
    (presented 0x7190#16 fieldsV).pending = { word := encode (.alarm2Enc .a2MatchDay), ports := fieldsV } :: [] := by decide
theorem witness_IllegalWordIsRecordedAndPassed :
    (presented 0x8100#16 {}).pending = { word := 0x8100#16, ports := {} } :: [] ∧ decode 0x8100#16 = .illegalCommand := by
  decide
theorem witness_ContractViolationIsRecordedAndPassed :
    (presented 0x718F#16 {}).pending = { word := 0x718F#16, ports := {} } :: [] ∧ decode 0x718F#16 = .contractViolation := by
  decide
theorem witness_MismatchedModeIsContractViolation :
    MatchMode.a2MatchDate.alarm = .two ∧ MatchMode.a1MatchDate.alarm = .one := by decide
theorem witness_NothingPresentedNothingChanges : State.reset.pending = [] := by decide

theorem witness_BcdEncPacksTwoDigits :
    (presented 0x1000#16 { n := some 99 }).ports.n = some 99 ∧ (presented 0x1000#16 {}).ports.n = none ∧
    ((0 : Int) ≤ 99 ∧ (99 : Int) ≤ 99) ∧ ((100 : Int) ≤ 159 ∧ (159 : Int) ≤ 159) ∧ ((160 : Int) ≤ 160 ∧ (160 : Int) ≤ 255) := by
  decide
theorem witness_BcdDecWeighsTwoNibbles :
    (presented 0x2000#16 { b := some 0xFF#8 }).ports.b = some 0xFF#8 ∧ (presented 0x2000#16 {}).ports.b = none := by decide
theorem witness_BcdRoundTripLaws :
    ((0 : Int) ≤ 159 ∧ (159 : Int) ≤ 159) ∧ ((160 : Int) ≤ 255 ∧ (255 : Int) ≤ 255) ∧ bcdEnc 159 = bcdEnc 159 ∧
    (15 < 16 ∧ 9 < 16) := by decide
theorem witness_BcdEncNeedsNoNarrowingInRange :
    ∃ wide : Int → Nat, ∀ n : Int, 0 ≤ n → n ≤ 255 → (wide n : Int) = n :=
  ⟨Int.toNat, fun n h _ => by omega⟩

theorem witness_TimeEncBuildsTheBlock :
    (presented 0x3000#16 { ts := some leapDay.toPort }).ports.ts = some leapDay.toPort ∧
    (presented 0x3000#16 {}).ports.ts = none ∧
    (presented 0x3000#16 { ts := some { leapDay.toPort with dayOfWeek := none } }).ports.ts =
      some { leapDay.toPort with dayOfWeek := none } ∧
    ({ leapDay with year := 1999 } : Timestamp).year = 1999 ∧ ({ leapDay with dayOfWeek := -1 } : Timestamp).dayOfWeek = -1 ∧
    ((80 : Int) ≤ 159 ∧ (159 : Int) ≤ 159) ∧ (⟨1950, 80, 1, 0, 0, 0, 0⟩ : Timestamp).month = 80 := by decide
theorem witness_TimeDecReadsTheBlock :
    (presented 0x4000#16 { buf := some leapDayBytes }).ports.buf = some leapDayBytes ∧ leapDayBytes.length = 7 ∧
    (presented 0x4000#16 {}).ports.buf = none ∧ (leapDayBytes.take 6).length ≠ 7 := by decide
theorem witness_TimeSetWritesTheBlockOnce :
    (presented 0x6000#16 { ts := some leapDay.toPort }).ports.ts = some leapDay.toPort ∧
    (presented 0x6000#16 { ts := some leapDay.toPort } .device [.completes []]).completes = true ∧
    (presented 0x6000#16 { ts := some leapDay.toPort } .device [.fails [true]]).completes = false ∧
    (presented 0x6000#16 {}).ports.ts = none := by decide
theorem witness_TimeGetDecodesOneRead :
    (presented 0x5000#16 {} .device [.completes leapDayBytes]).completes = true ∧
    (presented 0x5000#16 {} .device [.fails []]).completes = false ∧ (presented 0x5000#16 {}).transport = .simulator ∧
    (presented 0x5000#16 {}).completes = true ∧
    ∀ i, i < 7 → (Memory.writeBytes [] 0x00#8 leapDayBytes).read (BitVec.ofNat 8 i) = leapDayBytes[i]? := by decide
theorem witness_CenturyBitFollowsTheYear :
    ((0 : Int) ≤ 79 ∧ (79 : Int) ≤ 79) ∧ (2000 : Int) ≤ 2000 ∧ (1999 : Int) < 2000 ∧ (0x80#8 : Byte).getLsbD 7 = true ∧
    (0x7F#8 : Byte).getLsbD 7 = false := by decide
theorem witness_DayOfWeekIsStoredOneToSeven : -7 ≤ ({ leapDay with dayOfWeek := -7 } : Timestamp).dayOfWeek := by decide
/-- The bounds of the first law, reached at both ends, a failing field for the second, and the years of the third. -/
theorem witness_TimeRoundTripLaws :
    (let t : Timestamp := ⟨2159, 19, 159, 0, 159, 0, -9⟩
     0 ≤ t.second ∧ t.second ≤ 159 ∧ 0 ≤ t.minute ∧ t.minute ≤ 159 ∧ 0 ≤ t.hour ∧ t.hour ≤ 159 ∧ 0 ≤ t.day ∧ t.day ≤ 159 ∧
     0 ≤ t.month ∧ t.month ≤ 19 ∧ 1900 ≤ t.year ∧ t.year ≤ 2159) ∧
    20 ≤ (⟨2000, 20, 1, 0, 0, 0, 0⟩ : Timestamp).month ∧ 2159 < (⟨2160, 1, 1, 0, 0, 0, 0⟩ : Timestamp).year ∧
    (⟨1999, 12, 31, 23, 59, 59, 5⟩ : Timestamp).year = 1999 ∧ (⟨2000, 1, 1, 0, 0, 0, 6⟩ : Timestamp).year = 2000 := by decide
theorem witness_YearsOutsideTheRangeAlias :
    (let t : Timestamp := ⟨2160, 19, 1, 0, 0, 0, 0⟩
     0 ≤ t.month ∧ t.month ≤ 19 ∧ t.year = 2160 ∧ 2159 < t.year) ∧
    (2100 ≤ (⟨2100, 0, 1, 0, 0, 0, 0⟩ : Timestamp).year) ∧ (⟨1899, 1, 1, 0, 0, 0, 0⟩ : Timestamp).year < 1900 := by decide
theorem witness_SimulatorReadsBackTheTimeSet :
    (let s : State := { State.reset with
       transport := .simulator
       pending := [{ word := 0x6000#16, ports := { ({} : Ports) with ts := some leapDay.toPort } },
         { word := 0x5000#16, ports := {} }] }
     s.transport = .simulator ∧ s.replies = [] ∧
     s.pending = [{ word := 0x6000#16, ports := { ({} : Ports) with ts := some leapDay.toPort } },
       { word := 0x5000#16, ports := {} }]) ∧
    0 ≤ leapDay.second ∧ leapDay.second ≤ 159 ∧ 0 ≤ leapDay.minute ∧ leapDay.minute ≤ 159 ∧ 0 ≤ leapDay.hour ∧
    leapDay.hour ≤ 159 ∧ 0 ≤ leapDay.day ∧ leapDay.day ≤ 159 ∧ 0 ≤ leapDay.month ∧ leapDay.month ≤ 19 ∧
    1900 ≤ leapDay.year ∧ leapDay.year ≤ 2159 := by decide

/-- Ports with their fields one by one, for the alarm commands. -/
theorem witness_Alarm1EncBuildsTheBlock :
    MatchMode.a1MatchHours.alarm = .one ∧ (presented 0x7008#16 fields1).ports.minutes = some 30 ∧
    (presented 0x7008#16 fields1).ports.hours = some 14 ∧ (presented 0x7008#16 fields1).ports.dayOrDate = some 0 ∧
    (∀ m ∈ allModes, m.alarm = .one → modeCode m ≠ 0x04#8) ∧
    (presented 0x7008#16 {}).ports.minutes = none ∧
    (presented 0x7008#16 { minutes := some 30 }).ports.hours = none ∧
    (presented 0x7008#16 { minutes := some 30, hours := some 14 }).ports.dayOrDate = none := by decide
/-- `allModes` lists every mode, so the hypothesis of the contract clauses is the one above. -/
theorem witness_allModes_is_all (m : MatchMode) : m ∈ allModes := by cases m <;> decide
theorem witness_Alarm2EncBuildsTheBlock :
    MatchMode.a2MatchDay.alarm = .two ∧ (presented 0x7190#16 fieldsV).ports.minutes = some 30 ∧
    (presented 0x7190#16 fieldsV).ports.hours = some 14 ∧ (presented 0x7190#16 fieldsV).ports.dayOrDate = some 3 ∧
    (∀ m ∈ allModes, m.alarm = .two → modeCode m ≠ 0x8F#8) ∧ (presented 0x7190#16 {}).ports.minutes = none := by decide
theorem witness_Alarm1SetWritesItsRegisters :
    (let s := presented 0x9008#16 fields1
     MatchMode.a1MatchHours.alarm = .one ∧ s.ports.minutes = some 30 ∧ s.ports.hours = some 14 ∧ s.ports.dayOrDate = some 0 ∧
     s.coalesce = false ∧ ∀ j, j < 4 → s.completesAt j = true) ∧
    (let s := presented 0x9008#16 fields1 .device [.completes [], .completes [], .completes [], .fails [true]]
     (∀ j, j < 3 → s.completesAt j = true) ∧ s.completesAt 3 = false) ∧
    (let s := { presented 0x9008#16 fields1 .device [.fails [true, false]] with coalesce := true }
     s.coalesce = true ∧ s.completes = false ∧ s.ports.minutes = some 30) := by decide
theorem witness_Alarm2SetWritesItsRegisters :
    (let s := presented 0x9190#16 fieldsV
     MatchMode.a2MatchDay.alarm = .two ∧ s.ports.minutes = some 30 ∧ s.ports.hours = some 14 ∧ s.ports.dayOrDate = some 3 ∧
     s.coalesce = false ∧ ∀ j, j < 3 → s.completesAt j = true) ∧
    (let s := presented 0x9190#16 fieldsV .device [.fails [false]]
     s.completesAt 0 = false) := by decide
theorem witness_Alarm1DecReadsTheBlock :
    (presented 0x8000#16 { buf := some [0x00#8, 0x30#8, 0x14#8, 0x80#8] }).ports.buf = some [0x00#8, 0x30#8, 0x14#8, 0x80#8] ∧
    (presented 0x8000#16 { buf := some [0x00#8, 0x30#8, 0x14#8] }).ports.buf = some [0x00#8, 0x30#8, 0x14#8] := by decide
theorem witness_Alarm2DecReadsTheBlock :
    (presented 0x8180#16 { buf := some [0x15#8, 0x07#8, 0x43#8] }).ports.buf = some [0x15#8, 0x07#8, 0x43#8] ∧
    (presented 0x8180#16 {}).ports.buf = none := by decide
/-- The bounds 79 and 39 reached, with seconds absent. -/
theorem witness_Alarm1FlagsAreExactlyTheModes :
    (let s := presented 0x7000#16 { minutes := some 79, hours := some 0, dayOrDate := some 39 }
     MatchMode.a1MatchDate.alarm = .one ∧ s.ports.minutes = some 79 ∧ s.ports.hours = some 0 ∧ s.ports.dayOrDate = some 39 ∧
     0 ≤ s.ports.seconds.getD 0 ∧ s.ports.seconds.getD 0 ≤ 79) ∧
    (presented 0x8000#16 { buf := some [0x00#8, 0x79#8, 0x00#8, 0x39#8] }).ports.buf =
      some [0x00#8, 0x79#8, 0x00#8, 0x39#8] := by decide
theorem witness_Alarm2FlagsAreExactlyTheModes :
    (let s := presented 0x7180#16 { minutes := some 0, hours := some 79, dayOrDate := some 0 }
     MatchMode.a2MatchDate.alarm = .two ∧ s.ports.minutes = some 0 ∧ s.ports.hours = some 79 ∧ s.ports.dayOrDate = some 0) ∧
    (presented 0x8180#16 { buf := some [0x00#8, 0x79#8, 0x00#8] }).ports.buf = some [0x00#8, 0x79#8, 0x00#8] := by decide
theorem witness_AlarmFieldsAreNotCorrected :
    (let f : AlarmFields := ⟨80, 99, 80, 40⟩
     80 ≤ f.seconds ∧ f.seconds ≤ 99 ∧ 80 ≤ f.minutes ∧ f.minutes ≤ 99 ∧ 80 ≤ f.hours ∧ f.hours ≤ 99 ∧ 40 ≤ f.dayOrDate ∧
     f.dayOrDate ≤ 79) ∧
    (let f : AlarmFields := ⟨0, 80, 0, 99⟩
     80 ≤ f.dayOrDate ∧ f.dayOrDate ≤ 99 ∧ f.minutes = 80) := by decide

/-- Both settings return `unit` from one state. -/
theorem witness_CoalescingLeavesTheSameImage :
    (let s := presented 0x9008#16 fields1
     (stepped { s with coalesce := false }).outcomes = s.outcomes ++ [.ok .unit] ∧
     (stepped { s with coalesce := true }).outcomes = s.outcomes ++ [.ok .unit]) := by decide
theorem witness_TempDecReadsQuarters :
    (presented 0xA000#16 { buf := some [0x80#8, 0x00#8] }).ports.buf = some [0x80#8, 0x00#8] ∧
    (presented 0xA000#16 { buf := some [0x80#8] }).ports.buf = some [0x80#8] := by decide
theorem witness_TempGetDecodesOneRead :
    (let s := presented 0xB000#16 {} .simulator [] [(0x11, 0xE7#8), (0x12, 0x80#8)]
     s.transport = .simulator ∧ s.completes = true ∧ s.image.read 0x11#8 = some 0xE7#8 ∧
     s.image.read 0x12#8 = some 0x80#8) ∧
    (presented 0xB000#16 {} .absent).completes = false := by decide
theorem witness_TemperatureIsTenBitTwosComplement :
    ((0x7F#8 : Byte).toNat * 4 + (0xC0#8 : Byte).toNat / 64 < 512) ∧
    (512 ≤ (0x80#8 : Byte).toNat * 4 + (0x00#8 : Byte).toNat / 64) ∧
    temperatureOfBytes [0x19#8, 0x40#8] = temperatureOfBytes [0x19#8, 0x7F#8] ∧ ((-512 : Int) ≤ 511 ∧ (511 : Int) ≤ 511) := by
  decide
theorem witness_CompletedWriteLands : (presented 0x6000#16 {}).completes = true ∧ leapDayBytes.length ≤ 256 := by decide
theorem witness_FailedTransactionsLandFreely :
    (let s := presented 0x6000#16 {} .device [.fails [true, false, true]]
     s.completes = false ∧ s.transport ≠ .absent ∧ s.replies = .fails [true, false, true] :: [] ∧
     [true, false, true].length = [0x01#8, 0x02#8, 0x03#8].length ∧ [0x01#8, 0x02#8, 0x03#8].length ≤ 256) := by decide
theorem witness_ReadsAreUnconstrainedDraws :
    (let s := presented 0xB000#16 {} .device [.completes [0xFF#8, 0xFF#8]]
     s.transport = .device ∧ s.replies = .completes [0xFF#8, 0xFF#8] :: []) ∧
    (let s := presented 0xB000#16 {} .simulator [] [(0x12, 0x80#8)]
     s.transport = .simulator ∧ s.completes = true ∧ s.image.read (0x11#8 + BitVec.ofNat 8 1) = some 0x80#8) := by decide
theorem witness_ReadsHaveNoSideEffect : (presented 0xB000#16 {}).transport ≠ .absent := by decide
theorem witness_AbsentTransportFailsAtOnce :
    (let s := presented 0x6000#16 { fields1 with ts := some leapDay.toPort } .absent
     s.transport = .absent ∧ s.ports.ts = some leapDay.toPort ∧ s.ports.minutes = some 30 ∧ s.ports.hours = some 14 ∧
     s.ports.dayOrDate = some 0) := by decide
theorem witness_EveryStepKeepsInv : State.reset.Inv ∧ step State.reset = .next State.reset :=
  ⟨⟨by decide, rfl, by simp [State.reset], rfl, by simp [State.reset], by simp [State.reset], List.Pairwise.nil⟩, rfl⟩
theorem witness_EveryCommandReachesItsOutcome :
    (presented 0x0000#16 {}).pending = { word := 0x0000#16, ports := {} } :: [] := by decide
theorem witness_AllPresentedCommandsRunInOrder : 1 ≤ (presented 0x0000#16 {}).pending.length := by decide
theorem witness_FaultLogGrowsOnlyByRejectedWords :
    (let s := presented 0xC000#16 {}
     s.pending = { word := 0xC000#16, ports := {} } :: [] ∧ decode 0xC000#16 = .illegalCommand) ∧
    decode 0x7100#16 = .contractViolation ∧ decode 0x1000#16 = .operation .bcdEnc ∧
    step (presented 0xC000#16 {}) = .next (stepped (presented 0xC000#16 {})) := ⟨by decide, by decide, by decide, rfl⟩
theorem witness_OnlyTimeAndAlarmRegistersAreWritten :
    step (presented 0x9008#16 fields1) = .next (stepped (presented 0x9008#16 fields1)) ∧ 0x0D#8 < (0x0E#8 : Byte) :=
  ⟨rfl, by decide⟩
theorem witness_PureCodecsChangeNothingElse :
    (Instr.alarm1Enc .a1MatchDay).wellFormed = true ∧ (∃ m, Instr.alarm1Enc .a1MatchDay = .alarm1Enc m) ∧
    Instr.tempDec ∈ ([.bcdEnc, .bcdDec, .timeEnc, .timeDec, .alarm1Dec, .alarm2Dec, .tempDec] : List Instr) :=
  ⟨rfl, ⟨_, rfl⟩, by decide⟩
theorem witness_TransactionCommandsStayInTheirBlock :
    (Instr.alarm1Set .a1MatchHours).wellFormed = true ∧
    exec (.alarm1Set .a1MatchHours) (presented 0x9008#16 fields1) = .next (stepped (presented 0x9008#16 fields1)) ∧
    0x06#8 < (0x0B#8 : Byte) ∧ 0x0A#8 < (0x0B#8 : Byte) ∧ (0x0A#8 : Byte) < 0x0B#8 := ⟨rfl, rfl, by decide, by decide, by decide⟩
theorem witness_RecordsDoNotInfluenceCommands :
    (let s := presented 0x5000#16 {}
     let s' : State := { s with cmdIndex := 7, outcomes := [.ok .unit], faults := [⟨0, .illegalCommand 0x0000#16⟩] }
     s.pending = s'.pending ∧ s.image = s'.image ∧ s.transport = s'.transport ∧ s.replies = s'.replies ∧
     s.drawIndex = s'.drawIndex ∧ s.coalesce = s'.coalesce ∧ s ≠ s') := by decide
theorem witness_PureCodecsReadOnlyTheirPorts :
    Instr.timeEnc.wellFormed = true ∧
    (presented 0x3000#16 { ts := some leapDay.toPort }).ports =
      (presented 0x3000#16 { ts := some leapDay.toPort } .absent [] [(0x00, 0x01#8)]).ports := by decide
theorem witness_MissingPortOutranksTransport :
    (presented 0x6000#16 {} .absent).ports.ts = none ∧ (presented 0x9008#16 {} .absent).ports.minutes = none ∧
    MatchMode.a1MatchHours.alarm = .one ∧ MatchMode.a2MatchHours.alarm = .two := by decide
theorem witness_AssembledAlarmWordsDecode :
    MatchMode.a1MatchDay.alarm = .one ∧ (0x10#8 : Byte) = modeCode .a1MatchDay ∧ MatchMode.a2MatchDay.alarm = .two ∧
    (0x90#8 : Byte) = modeCode .a2MatchDay ∧ ∀ m ∈ allModes, modeCode m ≠ 0x28#8 := by decide

end Sys2Proof.Tests
end

section
/-! PROOFS of the family 10_state.md: what a step runs, the invariant, liveness, and what a command's outcome depends on. -/

namespace Sys2Proof.Machine

/-! ### What a step runs (R24, R73) -/

section Step
variable {s : State} {c : Command} {rest : List Command}

theorem step_of_nothing_presented (h : s.pending = []) : step s = .next s := by
  simp only [step, State.fetch, h, List.head?_nil]

theorem step_of_operation {i : Instr} (h : s.pending = c :: rest) (hd : decode c.word = .operation i) :
    step s = exec i s := by
  simp only [step, State.fetch, h, List.head?_cons, hd]

theorem step_of_illegalCommand (h : s.pending = c :: rest) (hd : decode c.word = .illegalCommand) :
    step s = .next (s.endedByFault (.illegalCommand c.word)) := by
  simp only [step, State.fetch, h, List.head?_cons, hd, raise_illegalCommand]

theorem step_of_contractViolation (h : s.pending = c :: rest) (hd : decode c.word = .contractViolation) :
    step s = .next (s.endedByFault (.contractViolation c.word)) := by
  simp only [step, State.fetch, h, List.head?_cons, hd, raise_contractViolation]

/-- A step with a command presented is never the waiting step: it is an `Effect`. -/
theorem step_effect (h : s.pending = c :: rest) : ∃ t, step s = .next t ∧ Effect s t := by
  rcases step_cases s with ⟨hnil, _⟩ | heff
  · rw [h] at hnil
    cases hnil
  · exact heff

end Step

/-- Settles O7: the decoder's verdict selects the branch of `step` that is `exec` alone. -/
theorem stepRunsTheDecodedCommand : Obligations.StepRunsTheDecodedCommand :=
  fun _ _ _ _ => step_of_operation

/-- Settles O13: with nothing to fetch, `step` takes its waiting branch. -/
theorem nothingPresentedNothingChanges : Obligations.NothingPresentedNothingChanges :=
  fun _ => step_of_nothing_presented

/-! ### The invariant (R24, R27, R30, R50, R53, R211) -/

/-- The fault log of a run in two parts: the second part starts at the index the first part ends with. -/
theorem faultsOf_append (xs ys : List CommandOutcome) (k : Nat) :
    faultsOf k (xs ++ ys) = faultsOf k xs ++ faultsOf (k + xs.length) ys := by
  induction xs generalizing k with
  | nil => simp [faultsOf]
  | cons x xs ih =>
    have hlen : k + 1 + xs.length = k + (x :: xs).length := by simp only [List.length_cons]; omega
    have ih' := ih (k + 1)
    rw [hlen] at ih'
    cases x with
    | ok v => exact ih'
    | exception e =>
      simp only [List.cons_append, faultsOf, ih']
      split <;> rfl

/-- What a command does keeps the invariant: each clause is about the old entries, where it held, and the added ones, of
which `Effect` says it. -/
theorem Effect.keeps_inv {s t : State} (h : Effect s t) (hs : s.Inv) : t.Inv := by
  obtain ⟨o, ho, houtcomes, hfaults⟩ := h.outcome
  obtain ⟨rs, hhist, hrs⟩ := h.hist
  have hmem : ∀ r ∈ t.hist, r ∈ s.hist ∨ r ∈ rs := fun r hr => List.mem_append.mp (hhist ▸ hr)
  exact
    { image_wf := h.image_wf hs.image_wf
      one_outcome_a_command := by simp [houtcomes, h.cmdIndex, hs.one_outcome_a_command]
      results_in_range := fun o' ho' => by
        rw [houtcomes, List.mem_append, List.mem_singleton] at ho'
        rcases ho' with hold | rfl
        · exact hs.results_in_range o' hold
        · exact ho
      fault_log := by
        rw [hfaults, houtcomes, faultsOf_append, hs.fault_log, hs.one_outcome_a_command, Nat.zero_add]
      transactions_in_table := fun r hr => by
        rcases hmem r hr with hold | hadded
        · exact hs.transactions_in_table r hold
        · exact (hrs r hadded).1
      transactions_of_earlier_commands := fun r hr => by
        rw [h.cmdIndex]
        rcases hmem r hr with hold | hadded
        · exact Nat.lt_succ_of_lt (hs.transactions_of_earlier_commands r hold)
        · exact Nat.lt_succ_of_le (hrs r hadded).2.le
      history_in_command_order := by
        rw [hhist, List.pairwise_append]
        refine ⟨hs.history_in_command_order, List.pairwise_of_forall_mem_list fun x hx y hy => ?_,
          fun x hx y hy => ?_⟩
        · exact ((hrs x hx).2.trans (hrs y hy).2.symm).le
        · exact (hrs y hy).2 ▸ (hs.transactions_of_earlier_commands x hx).le }

/-- Settles O47: a step either waits or is an `Effect`, and both keep the invariant. -/
theorem everyStepKeepsInv : Obligations.EveryStepKeepsInv := by
  intro s t hs hstep
  rcases step_cases s with ⟨_, hwait⟩ | ⟨u, hu, heff⟩
  · rw [hwait] at hstep
    cases hstep
    exact hs
  · rw [hu] at hstep
    cases hstep
    exact heff.keeps_inv hs

/-! ### Every presented command runs (R24, R27, R217) -/

/-- Settles O48: the `Effect` of a presented command names its one outcome and what it adds to the logs. -/
theorem everyCommandReachesItsOutcome : Obligations.EveryCommandReachesItsOutcome := by
  intro s c rest h
  obtain ⟨t, hstep, heff⟩ := step_effect h
  obtain ⟨o, _, houtcomes, hfaults⟩ := heff.outcome
  obtain ⟨rs, hhist, _⟩ := heff.hist
  have hpending : t.pending = rest := by rw [heff.pending, h, List.tail_cons]
  exact ⟨t, o, rs, _, hstep, hpending, heff.cmdIndex, houtcomes, hhist, hfaults, heff.coalesce, heff.transport⟩

/-- A run whose first step answers a next state goes on from there. -/
theorem run_succ (M : Host.Core) {s t : M.State} (k : Nat) (h : M.step s = .next t) : M.run (k + 1) s = M.run k t := by
  rw [Host.Core.run, h]

/-- Settles O49, by induction on the number of commands: the first step is that of O48. -/
theorem allPresentedCommandsRunInOrder : Obligations.AllPresentedCommandsRunInOrder := by
  intro k
  induction k with
  | zero => exact fun s _ => ⟨s, rfl, by simp⟩
  | succ k ih =>
    intro s hk
    obtain ⟨c, rest, hp⟩ := List.exists_cons_of_length_pos (Nat.zero_lt_of_lt hk)
    obtain ⟨t, o, _, _, hstep, hpending, hindex, houtcomes, _⟩ := everyCommandReachesItsOutcome s c rest hp
    obtain ⟨u, hrun, hupending, huindex, hulength, hutake⟩ := ih t (by simpa [hp, hpending] using hk)
    refine ⟨u, (run_succ core k hstep).trans hrun, ?_, ?_, ?_, ?_⟩
    · rw [hupending, hpending, hp, List.drop_succ_cons]
    · rw [huindex, hindex, Nat.add_assoc, Nat.add_comm 1]
    · rw [hulength, houtcomes, List.length_append, List.length_singleton, Nat.add_assoc, Nat.add_comm 1]
    · calc u.outcomes.take s.outcomes.length
          = (u.outcomes.take t.outcomes.length).take s.outcomes.length := by
            rw [List.take_take, Nat.min_eq_left (by simp [houtcomes])]
        _ = s.outcomes := by rw [hutake, houtcomes, List.take_left]

/-! ### A pure codec is a function of its ports (R20, R53) -/

/-- The outcome of a command that issues no transaction, from its operands. -/
def pureOutcome {α : Type} (result : α → Result) : Except PortName α → CommandOutcome
  | .error p => .exception (.invalidArgument p)
  | .ok v => .ok (result v)

/-- A command without a transaction only records its outcome. -/
theorem withOperands_succeed {α : Type} (operands : Except PortName α) (s : State) (result : α → Result) :
    withOperands operands s (fun v => succeed (result v) s) = s.ended (pureOutcome result operands) := by
  cases operands with
  | error p => exact withOperands_error p s _
  | ok v => rfl

/-- The commands of R53 that issue no transaction. -/
def IsPureCodec (i : Instr) : Prop :=
  i ∈ [Instr.bcdEnc, .bcdDec, .timeEnc, .timeDec, .alarm1Dec, .alarm2Dec, .tempDec] ∨
    (∃ m, i = .alarm1Enc m) ∨ (∃ m, i = .alarm2Enc m)

/-- A pure codec records an outcome that is a function of its ports, and changes nothing else: each is one
`withOperands` around one result, for an alarm behind a pairing check that a well-formed instruction passes. -/
theorem exec_pureCodec {i : Instr} (hw : i.wellFormed = true) (hi : IsPureCodec i) :
    ∃ outcome : Ports → CommandOutcome, ∀ s, exec i s = .next (s.ended (outcome s.ports)) := by
  rcases hi with hi | ⟨m, rfl⟩ | ⟨m, rfl⟩
  · fin_cases hi
    all_goals exact ⟨fun p => pureOutcome _ _, fun s => congrArg Host.Outcome.next (withOperands_succeed _ s _)⟩
  · have hm : m.alarm = .one := by simpa [Instr.wellFormed] using hw
    exact ⟨fun p => pureOutcome _ (alarmOperands p), fun s => congrArg Host.Outcome.next
      ((withPairing_same _ s _ hm).trans (withOperands_succeed _ s _))⟩
  · have hm : m.alarm = .two := by simpa [Instr.wellFormed] using hw
    exact ⟨fun p => pureOutcome _ (alarmOperands p), fun s => congrArg Host.Outcome.next
      ((withPairing_same _ s _ hm).trans (withOperands_succeed _ s _))⟩

/-- Settles O55: the outcome is one function of the ports, applied to the same ports. -/
theorem pureCodecsReadOnlyTheirPorts : Obligations.PureCodecsReadOnlyTheirPorts := by
  intro i s s' hw hports hi
  obtain ⟨outcome, hexec⟩ := exec_pureCodec hw hi
  exact ⟨outcome s.ports, hexec s, hports ▸ hexec s'⟩

/-! ### Two runs that differ in their records only (R20, R27) -/

/-- Two states that agree on everything a command may read: the inputs and the register image, but no record. -/
structure SameInputs (s s' : State) : Prop where
  pending : s.pending = s'.pending
  image : s.image = s'.image
  transport : s.transport = s'.transport
  replies : s.replies = s'.replies
  drawIndex : s.drawIndex = s'.drawIndex
  coalesce : s.coalesce = s'.coalesce

section SameInputs
variable {s s' : State} (h : SameInputs s s')
include h

theorem SameInputs.ports : s.ports = s'.ports := by simp only [State.ports, h.pending]

theorem SameInputs.completes : s.completes = s'.completes := completes_congr h.transport h.replies h.drawIndex

theorem SameInputs.lands : s.lands = s'.lands := lands_congr h.transport h.replies h.drawIndex

theorem SameInputs.drawn (a : Byte) (n : Nat) : s.drawn a n = s'.drawn a n :=
  drawn_congr h.transport h.replies h.drawIndex h.image a n

theorem SameInputs.inputsUsed (k : Nat) : SameInputs (s.inputsUsed k) (s'.inputsUsed k) := by
  refine ⟨h.pending, h.image, h.transport, ?_, ?_, h.coalesce⟩
  · simp only [inputsUsed_replies, h.transport, h.replies]
  · simp only [inputsUsed_drawIndex, h.drawIndex]

theorem SameInputs.ended (o : CommandOutcome) : SameInputs (s.ended o) (s'.ended o) :=
  ⟨congrArg List.tail h.pending, h.image, h.transport, h.replies, h.drawIndex, h.coalesce⟩

end SameInputs

/-- A history record but for the command index. -/
def TransactionRecord.content (r : TransactionRecord) :
    TransactionKind × Byte × PayloadOrLen × TransactionStatus × List Byte :=
  (r.kind, r.addr, r.payloadOrLen, r.status, r.readBytes)

/-- `s` went to `t` and `s'` to `t'` doing the same: the ends agree on what a command may read, and the same outcomes and the
same transactions were added. -/
structure Lockstep (s s' t t' : State) : Prop where
  inputs : SameInputs t t'
  outcomes : ∃ os, t.outcomes = s.outcomes ++ os ∧ t'.outcomes = s'.outcomes ++ os
  hist : ∃ rs rs', t.hist = s.hist ++ rs ∧ t'.hist = s'.hist ++ rs' ∧
    rs.map TransactionRecord.content = rs'.map TransactionRecord.content

theorem Lockstep.trans {s s' t t' u u' : State} (h : Lockstep s s' t t') (h' : Lockstep t t' u u') :
    Lockstep s s' u u' := by
  obtain ⟨os, ho, ho'⟩ := h.outcomes
  obtain ⟨ps, hp, hp'⟩ := h'.outcomes
  obtain ⟨rs, rs', hr, hr', hrs⟩ := h.hist
  obtain ⟨qs, qs', hq, hq', hqs⟩ := h'.hist
  refine ⟨h'.inputs, ⟨os ++ ps, ?_, ?_⟩, ⟨rs ++ qs, rs' ++ qs', ?_, ?_, ?_⟩⟩
  · rw [hp, ho, List.append_assoc]
  · rw [hp', ho', List.append_assoc]
  · rw [hq, hr, List.append_assoc]
  · rw [hq', hr', List.append_assoc]
  · rw [List.map_append, List.map_append, hrs, hqs]

section Lockstep
variable {s s' : State} (h : SameInputs s s')
include h

theorem SameInputs.lockstep_refl : Lockstep s s' s s' :=
  ⟨h, ⟨[], by simp⟩, ⟨[], [], by simp⟩⟩

theorem SameInputs.lockstep_ended (o : CommandOutcome) : Lockstep s s' (s.ended o) (s'.ended o) :=
  ⟨h.ended o, ⟨[o], rfl, rfl⟩, ⟨[], [], by simp⟩⟩

/-- A fault adds to the fault log, which no command reads. -/
theorem SameInputs.lockstep_endedByFault (e : Exc) : Lockstep s s' (s.endedByFault e) (s'.endedByFault e) := by
  obtain ⟨hp, hi, ht, hr, hd, hc⟩ := h.ended (.exception e)
  exact ⟨⟨hp, hi, ht, hr, hd, hc⟩, ⟨[.exception e], rfl, rfl⟩, ⟨[], [], by simp⟩⟩

theorem SameInputs.lockstep_raise (e : Exc) : Lockstep s s' (raise e s) (raise e s') := by
  cases he : e.isFault with
  | false =>
    rw [raise_reported s he, raise_reported s' he]
    exact h.lockstep_ended _
  | true =>
    rw [raise_fault s he, raise_fault s' he]
    exact h.lockstep_endedByFault e

/-- One transaction that both sides log with the same content and that leaves the same image. -/
theorem SameInputs.lockstep_transaction {image image' : Memory} {r r' : TransactionRecord} (hi : image = image')
    (hr : r.content = r'.content) :
    Lockstep s s' { s.inputsUsed 1 with image := image, hist := s.hist ++ [r] }
      { s'.inputsUsed 1 with image := image', hist := s'.hist ++ [r'] } := by
  obtain ⟨hp, _, ht, hre, hd, hc⟩ := h.inputsUsed 1
  exact ⟨⟨hp, hi, ht, hre, hd, hc⟩, ⟨[], by simp⟩, ⟨[r], [r'], rfl, rfl, by simp [hr]⟩⟩

end Lockstep

/-! #### The shared operations, from `s` and from `s'` -/

/-- An operation that answers a state and a value does the same from `s` and from `s'` and answers the same value. -/
def AnswersAlike {α : Type} (s s' : State) (f : State → State × α) : Prop :=
  ∃ t t' v, f s = (t, v) ∧ f s' = (t', v) ∧ Lockstep s s' t t'

section Operations
variable {s s' : State} (h : SameInputs s s')
include h

theorem memWrite_alike (a : Byte) (bytes : List Byte) : AnswersAlike s s' (memWrite a bytes) := by
  cases hc : s.completes with
  | false =>
    exact ⟨_, _, _, memWrite_fails a bytes hc, memWrite_fails a bytes (h.completes ▸ hc),
      h.lockstep_transaction (by rw [h.image, h.lands]) rfl⟩
  | true =>
    exact ⟨_, _, _, memWrite_completes a bytes hc, memWrite_completes a bytes (h.completes ▸ hc),
      h.lockstep_transaction (by rw [h.image]) rfl⟩

theorem memRead_alike (a : Byte) (n : Nat) : AnswersAlike s s' (memRead a n) := by
  cases hc : s.completes with
  | false =>
    exact ⟨_, _, _, memRead_fails a n hc, memRead_fails a n (h.completes ▸ hc), h.lockstep_transaction h.image rfl⟩
  | true =>
    have hread' := memRead_completes a n (h.completes ▸ hc)
    rw [← h.drawn a n] at hread'
    exact ⟨_, _, _, memRead_completes a n hc, hread', h.lockstep_transaction h.image rfl⟩

theorem writeOnce_alike (a : Byte) (bytes : List Byte) : AnswersAlike s s' (writeOnce a bytes) := by
  obtain ⟨t, t', status, ht, ht', hl⟩ := memWrite_alike h a bytes
  simp only [AnswersAlike, writeOnce, ht, ht']
  cases status with
  | ok => exact ⟨t, t', none, rfl, rfl, hl⟩
  | failure => exact ⟨t, t', some (.transportFailure 0 a), rfl, rfl, hl⟩

omit h in
/-- By induction on the bytes: after a write that completes, both sides go on from states that agree again. -/
theorem writeEach_alike (bytes : List Byte) (i : Nat) (a : Byte) (h : SameInputs s s') :
    AnswersAlike s s' (writeEach i a bytes) := by
  induction bytes generalizing i a s s' with
  | nil => exact ⟨s, s', none, rfl, rfl, h.lockstep_refl⟩
  | cons b bs ih =>
    obtain ⟨t, t', status, ht, ht', hl⟩ := memWrite_alike h a [b]
    simp only [AnswersAlike, writeEach, ht, ht']
    cases status with
    | ok =>
      obtain ⟨u, u', v, hu, hu', hl'⟩ := ih (i + 1) (a + 1#8) hl.inputs
      exact ⟨u, u', v, hu, hu', hl.trans hl'⟩
    | failure => exact ⟨t, t', some (.transportFailure i a), rfl, rfl, hl⟩

theorem writeBlock_alike (a : Byte) (bytes : List Byte) : AnswersAlike s s' (writeBlock a bytes) := by
  simp only [AnswersAlike, writeBlock, ← h.coalesce]
  cases s.coalesce with
  | false => exact writeEach_alike bytes 0 a h
  | true => exact writeOnce_alike h a bytes

omit h in
theorem endSet_lockstep {f : State → State × Option Exc} (hf : AnswersAlike s s' f) :
    Lockstep s s' (endSet (f s)) (endSet (f s')) := by
  obtain ⟨t, t', e, ht, ht', hl⟩ := hf
  rw [ht, ht']
  cases e with
  | none => exact hl.trans (hl.inputs.lockstep_ended _)
  | some e => exact hl.trans (hl.inputs.lockstep_raise e)

theorem readThen_lockstep (a : Byte) (n : Nat) (dec : List Byte → Result) :
    Lockstep s s' (readThen a n dec s) (readThen a n dec s') := by
  obtain ⟨t, t', answer, ht, ht', hl⟩ := memRead_alike h a n
  simp only [readThen, ht, ht']
  cases answer with
  | none => exact hl.trans (hl.inputs.lockstep_raise _)
  | some bytes => exact hl.trans (hl.inputs.lockstep_ended _)

theorem withOperands_lockstep {α : Type} (operands : Ports → Except PortName α) {k k' : α → State}
    (hk : ∀ v, Lockstep s s' (k v) (k' v)) :
    Lockstep s s' (withOperands (operands s.ports) s k) (withOperands (operands s'.ports) s' k') := by
  rw [← h.ports]
  cases operands s.ports with
  | error p => exact h.lockstep_raise _
  | ok v => exact hk v

theorem withPairing_lockstep (alarm : AlarmNumber) (mode : MatchMode) (i : Instr) {k k' : State}
    (hk : Lockstep s s' k k') : Lockstep s s' (withPairing alarm mode i s k) (withPairing alarm mode i s' k') := by
  by_cases hm : mode.alarm = alarm
  · rwa [withPairing_same i s k hm, withPairing_same i s' k' hm]
  · rw [withPairing_other i s k hm, withPairing_other i s' k' hm]
    exact h.lockstep_endedByFault _

/-! #### A command and a step -/

theorem exec_lockstep (i : Instr) : ∃ t t', exec i s = .next t ∧ exec i s' = .next t' ∧ Lockstep s s' t t' := by
  have done {result : Result} : Lockstep s s' (succeed result s) (succeed result s') := h.lockstep_ended _
  cases i with
  | bcdEnc => exact ⟨_, _, rfl, rfl, withOperands_lockstep h decimalOperand fun _ => done⟩
  | bcdDec => exact ⟨_, _, rfl, rfl, withOperands_lockstep h byteOperand fun _ => done⟩
  | timeEnc => exact ⟨_, _, rfl, rfl, withOperands_lockstep h timestampOperand fun _ => done⟩
  | timeDec => exact ⟨_, _, rfl, rfl, withOperands_lockstep h (bufferOperand 7) fun _ => done⟩
  | timeGet => exact ⟨_, _, rfl, rfl, readThen_lockstep h _ _ _⟩
  | timeSet =>
    exact ⟨_, _, rfl, rfl,
      withOperands_lockstep h timestampOperand fun _ => endSet_lockstep (writeOnce_alike h _ _)⟩
  | alarm1Enc mode =>
    exact ⟨_, _, rfl, rfl, withPairing_lockstep h _ _ _ (withOperands_lockstep h alarmOperands fun _ => done)⟩
  | alarm2Enc mode =>
    exact ⟨_, _, rfl, rfl, withPairing_lockstep h _ _ _ (withOperands_lockstep h alarmOperands fun _ => done)⟩
  | alarm1Dec => exact ⟨_, _, rfl, rfl, withOperands_lockstep h (bufferOperand 4) fun _ => done⟩
  | alarm2Dec => exact ⟨_, _, rfl, rfl, withOperands_lockstep h (bufferOperand 3) fun _ => done⟩
  | alarm1Set mode =>
    exact ⟨_, _, rfl, rfl, withPairing_lockstep h _ _ _
      (withOperands_lockstep h alarmOperands fun _ => endSet_lockstep (writeBlock_alike h _ _))⟩
  | alarm2Set mode =>
    exact ⟨_, _, rfl, rfl, withPairing_lockstep h _ _ _
      (withOperands_lockstep h alarmOperands fun _ => endSet_lockstep (writeBlock_alike h _ _))⟩
  | tempDec => exact ⟨_, _, rfl, rfl, withOperands_lockstep h (bufferOperand 2) fun _ => done⟩
  | tempGet => exact ⟨_, _, rfl, rfl, readThen_lockstep h _ _ _⟩

theorem step_lockstep : ∃ t t', step s = .next t ∧ step s' = .next t' ∧ Lockstep s s' t t' := by
  cases hp : s.pending with
  | nil => exact ⟨s, s', step_of_nothing_presented hp, step_of_nothing_presented (h.pending ▸ hp), h.lockstep_refl⟩
  | cons c rest =>
    have hp' : s'.pending = c :: rest := h.pending ▸ hp
    cases hd : decode c.word with
    | operation i =>
      rw [step_of_operation hp hd, step_of_operation hp' hd]
      exact exec_lockstep h i
    | illegalCommand =>
      exact ⟨_, _, step_of_illegalCommand hp hd, step_of_illegalCommand hp' hd, h.lockstep_endedByFault _⟩
    | contractViolation =>
      exact ⟨_, _, step_of_contractViolation hp hd, step_of_contractViolation hp' hd, h.lockstep_endedByFault _⟩

end Operations

/-- Settles O54: both steps are in lockstep, so what each adds is the same. -/
theorem recordsDoNotInfluenceCommands : Obligations.RecordsDoNotInfluenceCommands := by
  intro s s' hp hi ht hr hd hc
  obtain ⟨t, t', hstep, hstep', hl⟩ := step_lockstep ⟨hp, hi, ht, hr, hd, hc⟩
  obtain ⟨os, ho, ho'⟩ := hl.outcomes
  obtain ⟨rs, rs', hh, hh', hrs⟩ := hl.hist
  obtain ⟨up, ui, ut, ur, ud, uc⟩ := hl.inputs
  refine ⟨t, t', hstep, hstep', up, ui, ut, ur, ud, uc, ?_, ?_⟩
  · rw [ho, ho', List.drop_left, List.drop_left]
  · rw [hh, hh', List.drop_left, List.drop_left]
    exact hrs

end Sys2Proof.Machine
end

section
/-! PROOFS of the family 20_memory.md: what one transaction leaves and reads, and the frames of steps and commands. -/

namespace Sys2Proof.Machine

/-! ### A scripted transaction (R47, R49; log 6) -/

/-- A transport that is there gives the oldest reply of its script. -/
theorem scripted_of_replies {s : State} {reply : Reply} {rest : List Reply} (ht : s.transport ≠ .absent)
    (hr : s.replies = reply :: rest) : s.scripted = some reply := by
  cases hs : s.transport with
  | absent => exact absurd hs ht
  | device => simp only [State.scripted, hs, hr, List.head?_cons]
  | simulator => simp only [State.scripted, hs, hr, List.head?_cons]

theorem completes_of_scripted_completes {s : State} {bytes : List Byte} (h : s.scripted = some (.completes bytes)) :
    s.completes = true := by
  simp only [State.completes, h]

theorem completes_of_scripted_fails {s : State} {landed : List Bool} (h : s.scripted = some (.fails landed)) :
    s.completes = false := by
  simp only [State.completes, h]

/-- A script with a flag for every payload byte decides which of them land. -/
theorem lands_of_scripted {s : State} {landed : List Bool} (h : s.scripted = some (.fails landed)) :
    (List.range landed.length).map s.lands = landed := by
  refine List.ext_getElem (by simp) fun i _ hi => ?_
  simp [State.lands, h, hi]

/-- A script with all the bytes asked for decides what a device answers. -/
theorem drawn_of_scripted {s : State} {bytes : List Byte} (ht : s.transport = .device)
    (h : s.scripted = some (.completes bytes)) (a : Byte) : s.drawn a bytes.length = bytes := by
  refine List.ext_getElem (by simp) fun i _ hi => ?_
  simp [State.drawn, State.drawnByte, ht, h, hi]

/-- The simulator oracle answers a listed address with the image's byte (R47). -/
theorem drawnByte_of_simulator {s : State} {a v : Byte} (ht : s.transport = .simulator) (hv : s.image.read a = some v)
    (i : Nat) : s.drawnByte a i = v := by
  simp only [State.drawnByte, ht, hv, Option.getD_some]

theorem drawn_getElem? (s : State) (a : Byte) {n i : Nat} (h : i < n) :
    (s.drawn a n)[i]? = some (s.drawnByte (a + BitVec.ofNat 8 i) i) := by
  simp [State.drawn, h]

/-- A read, completed or not, does the bookkeeping of its one record and nothing more (R27, R55). -/
theorem memRead_logs (a : Byte) (n : Nat) (s : State) : ∃ r, (memRead a n s).1 = s.logTransaction r := ⟨_, rfl⟩

/-! ### The effects of one transaction (R47, R48, R49, R55) -/

/-- Settles O40: the image of a completed write is `writeBytes`, which holds the block. -/
theorem completedWriteLands : Obligations.CompletedWriteLands := by
  intro s a bytes hc hl
  rw [memWrite_completes a bytes hc]
  exact ⟨rfl, writeBytes_holdsBlock s.image a bytes hl, rfl⟩

/-- Settles O41: the image of a failed write is `writeLanded` under the flags that the script, or a free value, gives. -/
theorem failedTransactionsLandFreely : Obligations.FailedTransactionsLandFreely := by
  refine ⟨fun s a bytes hc hl => ?_, fun s a bytes landed rest ht hr hlen hl i hi => ?_, fun s a n hc => ?_⟩
  · rw [memWrite_fails a bytes hc]
    exact ⟨rfl, writeLanded_oldOrNew s.image a bytes _ (by simp) hl⟩
  · have hscript := scripted_of_replies ht hr
    rw [memWrite_fails a bytes (completes_of_scripted_fails hscript), ← hlen, lands_of_scripted hscript]
    exact read_writeLanded_inside bytes s.image a landed hlen hl i hi
  · rw [memRead_fails a n hc]
    exact ⟨rfl, rfl⟩

/-- Settles O42: a completed read answers the draw, which is the script's under a device and the image's under the simulator
oracle. -/
theorem readsAreUnconstrainedDraws : Obligations.ReadsAreUnconstrainedDraws := by
  refine ⟨fun s a bytes rest ht hr => ?_, fun s a n i ht hc hi v hv => ?_⟩
  · have hscript : s.scripted = some (.completes bytes) := scripted_of_replies (by simp [ht]) hr
    rw [memRead_completes a _ (completes_of_scripted_completes hscript), drawn_of_scripted ht hscript]
  · rw [memRead_completes a n hc, Option.map_some, drawn_getElem? s a hi, drawnByte_of_simulator ht hv]

/-- Settles O43: the bookkeeping of a read is `logTransaction`, which does not touch the image. -/
theorem readsHaveNoSideEffect : Obligations.ReadsHaveNoSideEffect := by
  intro s a n
  obtain ⟨r, hr⟩ := memRead_logs a n s
  rw [hr]
  exact ⟨logTransaction_image r s, fun ht => by rw [logTransaction_replies, if_neg ht], logTransaction_drawIndex r s⟩

/-! ### The frames of a step and of a pure codec (R44, R45, R53) -/

/-- Settles O51: a step waits, and adds no record, or is an `Effect`, which names its records and its frame. -/
theorem onlyTimeAndAlarmRegistersAreWritten : Obligations.OnlyTimeAndAlarmRegistersAreWritten := by
  intro s t hstep
  rcases step_cases s with ⟨_, hwait⟩ | ⟨u, hu, heff⟩
  · rw [hwait] at hstep
    cases hstep
    exact ⟨by simp, fun _ _ => rfl⟩
  · rw [hu] at hstep
    cases hstep
    obtain ⟨rs, hhist, hrs⟩ := heff.hist
    rw [hhist, List.drop_left]
    exact ⟨hrs, heff.image_frame⟩

/-- Settles O52: a pure codec ends with the outcome its ports give. -/
theorem pureCodecsChangeNothingElse : Obligations.PureCodecsChangeNothingElse := by
  intro i s hw hi
  obtain ⟨outcome, hexec⟩ := exec_pureCodec hw hi
  exact ⟨outcome s.ports, hexec s⟩

/-! ### The frame of a transaction command (R44, R53) -/

/-- From `s` to `t` no register outside `block` changed, and neither did the fault log, the transport or ALARM_COALESCE. -/
structure StaysWithin (block : Byte → Prop) (s t : State) : Prop where
  image : ∀ a, ¬ block a → t.image.read a = s.image.read a
  faults : t.faults = s.faults
  transport : t.transport = s.transport
  coalesce : t.coalesce = s.coalesce

/-- The writes of a SET stay within `block`, and the exception they end in, if any, is no fault. -/
structure WritesWithin (block : Byte → Prop) (s : State) (p : State × Option Exc) : Prop where
  stays : StaysWithin block s p.1
  reported : ∀ e, p.2 = some e → e.isFault = false

section StaysWithin
variable {block : Byte → Prop} {s t u : State}

theorem StaysWithin.refl (s : State) : StaysWithin block s s := ⟨fun _ _ => rfl, rfl, rfl, rfl⟩

theorem StaysWithin.trans (h : StaysWithin block s t) (h' : StaysWithin block t u) : StaysWithin block s u :=
  ⟨fun a ha => (h'.image a ha).trans (h.image a ha), h'.faults.trans h.faults, h'.transport.trans h.transport,
    h'.coalesce.trans h.coalesce⟩

/-- Recording an outcome is within every block. -/
theorem StaysWithin.ended (h : StaysWithin block s t) (o : CommandOutcome) : StaysWithin block s (t.ended o) :=
  ⟨h.image, h.faults, h.transport, h.coalesce⟩

theorem WritesWithin.of_ok (h : StaysWithin block s t) : WritesWithin block s (t, none) :=
  ⟨h, fun _ he => nomatch he⟩

theorem WritesWithin.of_failure (h : StaysWithin block s t) (k : Nat) (a : Byte) :
    WritesWithin block s (t, some (.transportFailure k a)) :=
  ⟨h, fun _ he => Option.some.inj he ▸ rfl⟩

theorem memWrite_staysWithin {a : Byte} {bytes : List Byte}
    (hb : ∀ i, i < bytes.length → block (a + BitVec.ofNat 8 i)) : StaysWithin block s (memWrite a bytes s).1 := by
  have outside : ∀ b, ¬ block b → ∀ i, i < bytes.length → b ≠ a + BitVec.ofNat 8 i :=
    fun b hnot i hi e => hnot (e ▸ hb i hi)
  cases hc : s.completes with
  | false =>
    rw [memWrite_fails a bytes hc]
    exact ⟨fun b hnot => read_writeLanded_outside bytes s.image a b _ (outside b hnot), rfl, rfl, rfl⟩
  | true =>
    rw [memWrite_completes a bytes hc]
    refine ⟨fun b hnot => ?_, rfl, rfl, rfl⟩
    rw [← read_writeLanded_outside bytes s.image a b _ (outside b hnot), writeLanded_all]

theorem writeOnce_writesWithin {a : Byte} {bytes : List Byte}
    (hb : ∀ i, i < bytes.length → block (a + BitVec.ofNat 8 i)) : WritesWithin block s (writeOnce a bytes s) := by
  have hw := memWrite_staysWithin (s := s) hb
  rcases hm : memWrite a bytes s with ⟨t, status⟩
  rw [hm] at hw
  simp only [writeOnce, hm]
  cases status with
  | ok => exact .of_ok hw
  | failure => exact .of_failure hw 0 a

/-- By induction on the bytes: a write that completes leaves the rest of the block to the writes after it. -/
theorem writeEach_writesWithin (bytes : List Byte) (k : Nat) (a : Byte) (s : State)
    (hb : ∀ i, i < bytes.length → block (a + BitVec.ofNat 8 i)) : WritesWithin block s (writeEach k a bytes s) := by
  induction bytes generalizing k a s with
  | nil => exact .of_ok (.refl s)
  | cons b bs ih =>
    have hfirst : ∀ i, i < [b].length → block (a + BitVec.ofNat 8 i) := fun i hi =>
      hb i (Nat.lt_of_lt_of_le hi (by simp))
    have hrest : ∀ i, i < bs.length → block (a + 1#8 + BitVec.ofNat 8 i) := fun i hi =>
      addr_succ a i ▸ hb (i + 1) (Nat.succ_lt_succ hi)
    have hw := memWrite_staysWithin (s := s) hfirst
    rcases hm : memWrite a [b] s with ⟨t, status⟩
    rw [hm] at hw
    simp only [writeEach, hm]
    cases status with
    | ok =>
      have hlater := ih (k + 1) (a + 1#8) t hrest
      exact ⟨hw.trans hlater.stays, hlater.reported⟩
    | failure => exact .of_failure hw k a

theorem writeBlock_writesWithin {a : Byte} {bytes : List Byte}
    (hb : ∀ i, i < bytes.length → block (a + BitVec.ofNat 8 i)) : WritesWithin block s (writeBlock a bytes s) := by
  simp only [writeBlock]
  split
  · exact writeOnce_writesWithin hb
  · exact writeEach_writesWithin bytes 0 a s hb

theorem endSet_staysWithin {p : State × Option Exc} (h : WritesWithin block s p) : StaysWithin block s (endSet p) := by
  obtain ⟨t, e⟩ := p
  cases e with
  | none => exact h.stays.ended _
  | some e =>
    rw [endSet, raise_reported t (h.reported e rfl)]
    exact h.stays.ended _

theorem withOperands_staysWithin {α : Type} {operands : Except PortName α} {k : α → State}
    (hk : ∀ v, StaysWithin block s (k v)) : StaysWithin block s (withOperands operands s k) := by
  cases operands with
  | error p =>
    rw [withOperands_error]
    exact (StaysWithin.refl s).ended _
  | ok v => exact hk v

/-- A GET logs its one read and ends with an outcome (R57). -/
theorem readThen_logs (a : Byte) (n : Nat) (dec : List Byte → Result) (s : State) :
    ∃ r o, readThen a n dec s = (s.logTransaction r).ended o := by
  obtain ⟨r, hr⟩ := memRead_logs a n s
  rcases hm : memRead a n s with ⟨t, answer⟩
  obtain rfl : t = s.logTransaction r := by rw [← hr, hm]
  simp only [readThen, hm]
  cases answer with
  | none => exact ⟨r, _, raise_transportFailure 0 a _⟩
  | some bytes => exact ⟨r, _, succeed_eq_ended _ _⟩

theorem readThen_image (a : Byte) (n : Nat) (dec : List Byte → Result) (s : State) :
    (readThen a n dec s).image = s.image := by
  obtain ⟨r, o, h⟩ := readThen_logs a n dec s
  rw [h, ended_image, logTransaction_image]

theorem readThen_staysWithin (a : Byte) (n : Nat) (dec : List Byte → Result) (s : State) :
    StaysWithin block s (readThen a n dec s) := by
  obtain ⟨r, o, h⟩ := readThen_logs a n dec s
  have hlog : StaysWithin block s (s.logTransaction r) := ⟨fun _ _ => rfl, rfl, rfl, rfl⟩
  rw [h]
  exact hlog.ended o

end StaysWithin

/-- The registers a command may write (R44): those of its own block for a SET, none for any other. -/
def writesRegister : Instr → Byte → Prop
  | .timeSet, a => a ≤ 0x06#8
  | .alarm1Set _, a => 0x07#8 ≤ a ∧ a ≤ 0x0A#8
  | .alarm2Set _, a => 0x0B#8 ≤ a ∧ a ≤ 0x0D#8
  | _, _ => False

theorem writesRegister_timeSet : ∀ i, i < 7 → writesRegister .timeSet (Config.timeBase + BitVec.ofNat 8 i) := by
  simp only [writesRegister]
  decide

theorem writesRegister_alarm1Set (m : MatchMode) :
    ∀ i, i < 4 → writesRegister (.alarm1Set m) (Config.a1Base + BitVec.ofNat 8 i) := by
  simp only [writesRegister]
  decide

theorem writesRegister_alarm2Set (m : MatchMode) :
    ∀ i, i < 3 → writesRegister (.alarm2Set m) (Config.a2Base + BitVec.ofNat 8 i) := by
  simp only [writesRegister]
  decide

/-- The two kinds of command of R53: those that issue a transaction, and the pure codecs. -/
theorem isPureCodec_or_transaction (i : Instr) :
    IsPureCodec i ∨ i = .timeGet ∨ i = .tempGet ∨ i = .timeSet ∨ (∃ m, i = .alarm1Set m) ∨ (∃ m, i = .alarm2Set m) := by
  cases i <;> simp [IsPureCodec]

/-- A well-formed command changes no register but those it may write, and no fault, transport or ALARM_COALESCE. -/
theorem exec_staysWithin {i : Instr} (hw : i.wellFormed = true) (s : State) :
    ∃ t, exec i s = .next t ∧ StaysWithin (writesRegister i) s t := by
  rcases isPureCodec_or_transaction i with hpure | rfl | rfl | rfl | ⟨m, rfl⟩ | ⟨m, rfl⟩
  · obtain ⟨outcome, hexec⟩ := exec_pureCodec hw hpure
    exact ⟨_, hexec s, (StaysWithin.refl s).ended _⟩
  · exact ⟨_, rfl, readThen_staysWithin _ _ _ s⟩
  · exact ⟨_, rfl, readThen_staysWithin _ _ _ s⟩
  · exact ⟨_, rfl, withOperands_staysWithin fun _ => endSet_staysWithin (writeOnce_writesWithin writesRegister_timeSet)⟩
  · have hm : m.alarm = .one := by simpa [Instr.wellFormed] using hw
    exact ⟨_, congrArg Host.Outcome.next (withPairing_same _ s _ hm), withOperands_staysWithin fun _ =>
      endSet_staysWithin (writeBlock_writesWithin (writesRegister_alarm1Set m))⟩
  · have hm : m.alarm = .two := by simpa [Instr.wellFormed] using hw
    exact ⟨_, congrArg Host.Outcome.next (withPairing_same _ s _ hm), withOperands_staysWithin fun _ =>
      endSet_staysWithin (writeBlock_writesWithin (writesRegister_alarm2Set m))⟩

/-- Settles O53: each clause is `exec_staysWithin` at an address outside the command's own registers. -/
theorem transactionCommandsStayInTheirBlock : Obligations.TransactionCommandsStayInTheirBlock := by
  intro i s t hw hexec
  obtain ⟨u, hu, hstays⟩ := exec_staysWithin hw s
  obtain rfl : u = t := Host.Outcome.next.inj (hu.symm.trans hexec)
  refine ⟨?_, ?_, ?_, ?_, hstays.faults, hstays.transport, hstays.coalesce⟩
  · rintro rfl a ha
    exact hstays.image a (BitVec.not_le.mpr ha)
  · rintro m rfl a (ha | ha)
    · exact hstays.image a fun h => BitVec.not_le.mpr ha h.1
    · exact hstays.image a fun h => BitVec.not_le.mpr ha h.2
  · rintro m rfl a (ha | ha)
    · exact hstays.image a fun h => BitVec.not_le.mpr ha h.1
    · exact hstays.image a fun h => BitVec.not_le.mpr ha h.2
  · rintro (rfl | rfl)
    · exact Host.Outcome.next.inj hexec ▸ readThen_image _ _ _ s
    · exact Host.Outcome.next.inj hexec ▸ readThen_image _ _ _ s

end Sys2Proof.Machine
end

section
/-! PROOFS of the family 30_encoding.md: the fields of a word, the two round trips of the decoder and the encoder, the mode
codes, a step on an instruction's own word, and the assembler. -/

namespace Sys2Proof

/-! ### The word of given fields (R71) -/

/-- The command word with RSV clear and the given OP, ALM and MODE. -/
def wordOfFields (op : Nat) (alm : Bool) (mode : Byte) : Word :=
  BitVec.ofNat 16 ((op * 16 + alm.toNat) * 256) ||| mode.setWidth 16

section Fields
variable {op : Nat} (hop : op < 16) (alm : Bool) (mode : Byte)
include hop

theorem wordOfFields_toNat : (wordOfFields op alm mode).toNat = (op * 16 + alm.toNat) * 256 + mode.toNat := by
  have := alm.toNat_lt
  exact toNat_or_mode (by omega) mode

theorem opField_wordOfFields : opField (wordOfFields op alm mode) = op := by
  have := alm.toNat_lt
  have := mode.isLt
  rw [opField_eq, wordOfFields_toNat hop]
  omega

theorem rsvField_wordOfFields : rsvField (wordOfFields op alm mode) = 0 := by
  have := alm.toNat_lt
  have := mode.isLt
  rw [rsvField_eq_zero, wordOfFields_toNat hop]
  omega

theorem almField_wordOfFields : almField (wordOfFields op alm mode) = alm := by
  have hbit : ((op * 16 + alm.toNat) * 256 + mode.toNat) / 256 % 2 = alm.toNat := by
    have := alm.toNat_lt
    have := mode.isLt
    omega
  rw [almField_eq, wordOfFields_toNat hop, hbit]
  cases alm <;> rfl

theorem modeField_wordOfFields : modeField (wordOfFields op alm mode) = mode := by
  apply BitVec.eq_of_toNat_eq
  have := mode.isLt
  rw [modeField_toNat, wordOfFields_toNat hop]
  omega

end Fields

/-- A word whose RSV is clear is the word of its other fields. -/
theorem wordOfFields_fields {w : Word} (hrsv : rsvField w = 0) :
    wordOfFields (opField w) (almField w) (modeField w) = w := by
  have hlt := w.isLt
  have hop : opField w = w.toNat / 4096 := opField_eq w
  have hmode : (modeField w).toNat = w.toNat % 256 := modeField_toNat w
  have halm : (almField w).toNat = w.toNat / 256 % 2 := by
    rw [almField_eq]
    rcases Nat.mod_two_eq_zero_or_one (w.toNat / 256) with h | h <;> simp [h]
  have hzero : w.toNat / 512 % 8 = 0 := (rsvField_eq_zero w).mp hrsv
  apply BitVec.eq_of_toNat_eq
  rw [wordOfFields_toNat (by omega)]
  omega

/-! ### The decoder on the alarm operations (R73) -/

theorem decode_alarmEnc_word (alm : Bool) (mode : Byte) :
    decode (wordOfFields 0x7 alm mode) = decodeAlarmMode .alarm1Enc .alarm2Enc alm mode := by
  simp [decode, opField_wordOfFields, rsvField_wordOfFields, almField_wordOfFields, modeField_wordOfFields]

theorem decode_alarmSet_word (alm : Bool) (mode : Byte) :
    decode (wordOfFields 0x9 alm mode) = decodeAlarmMode .alarm1Set .alarm2Set alm mode := by
  simp [decode, opField_wordOfFields, rsvField_wordOfFields, almField_wordOfFields, modeField_wordOfFields]

section AlarmMode
variable {one two : MatchMode → Instr} {alm : Bool} {mode : Byte}

/-- A mode byte is accepted exactly where it is the code of a mode of the alarm that ALM names (R76, R77). -/
theorem decodeAlarmMode_eq_operation {i : Instr} :
    decodeAlarmMode one two alm mode = .operation i ↔
      ∃ m : MatchMode, modeCode m = mode ∧ (m.alarm = .two ↔ alm = true) ∧ i = if alm then two m else one m := by
  constructor
  · intro h
    unfold decodeAlarmMode at h
    split at h
    · cases h
    next m hm =>
      have hcode : modeCode m = mode := modeCode_of_modeOfCode hm
      split at h
      · cases h
      next hbit =>
        rw [ne_eq, not_not] at hbit
        cases h
        exact ⟨m, hcode, by rw [← modeCode_bit_seven, hcode, hbit], rfl⟩
  · rintro ⟨m, rfl, hpair, rfl⟩
    have hbit : (modeCode m).getLsbD 7 = alm := Bool.eq_iff_iff.mpr ((modeCode_bit_seven m).trans hpair)
    simp only [decodeAlarmMode, modeOfCode_modeCode, hbit, ne_eq, not_true_eq_false, if_false]

theorem decodeAlarmMode_alarm_one {m : MatchMode} (h : m.alarm = .one) :
    decodeAlarmMode one two false (modeCode m) = .operation (one m) :=
  decodeAlarmMode_eq_operation.mpr ⟨m, rfl, by simp [h], rfl⟩

theorem decodeAlarmMode_alarm_two {m : MatchMode} (h : m.alarm = .two) :
    decodeAlarmMode one two true (modeCode m) = .operation (two m) :=
  decodeAlarmMode_eq_operation.mpr ⟨m, rfl, by simp [h], rfl⟩

theorem decodeAlarmMode_unlisted (h : ∀ m : MatchMode, modeCode m ≠ mode) :
    decodeAlarmMode one two alm mode = .contractViolation := by
  simp only [decodeAlarmMode, modeOfCode_eq_none h]

end AlarmMode

/-! ### Decode after encode (R82) -/

/-- A well-formed instruction's word decodes to it: an alarm operation by the code of its mode, any other as one fixed
word. -/
theorem decode_encode {i : Instr} (hw : i.wellFormed = true) : decode (encode i) = .operation i := by
  cases i with
  | alarm1Enc m =>
    exact (decode_alarmEnc_word false (modeCode m)).trans (decodeAlarmMode_alarm_one (of_decide_eq_true hw))
  | alarm2Enc m =>
    exact (decode_alarmEnc_word true (modeCode m)).trans (decodeAlarmMode_alarm_two (of_decide_eq_true hw))
  | alarm1Set m =>
    exact (decode_alarmSet_word false (modeCode m)).trans (decodeAlarmMode_alarm_one (of_decide_eq_true hw))
  | alarm2Set m =>
    exact (decode_alarmSet_word true (modeCode m)).trans (decodeAlarmMode_alarm_two (of_decide_eq_true hw))
  | bcdEnc | bcdDec | timeEnc | timeDec | timeGet | timeSet | alarm1Dec | alarm2Dec | tempDec | tempGet => rfl

/-- Settles O1, by the constructors of the instruction. -/
theorem decodeOfEncode : Obligations.DecodeOfEncode :=
  fun _ => decode_encode

/-! ### Encode after decode (R73, R82) -/

/-- The word `w` is the word of `i`, which is well formed. -/
def IsWordOf (w : Word) (i : Instr) : Prop := encode i = w ∧ i.wellFormed = true

theorem isWordOf_of_decodePlain {op : Nat} {i : Instr} (h : decodePlain op = .operation i) :
    IsWordOf (wordOfFields op false 0) i := by
  unfold decodePlain at h
  split at h <;> cases h <;> exact ⟨rfl, rfl⟩

theorem isWordOf_of_decodeAlarmDec {alm : Bool} {mode : Byte} {i : Instr}
    (h : decodeAlarmDec alm mode = .operation i) : IsWordOf (wordOfFields 0x8 alm mode) i := by
  cases alm with
  | false =>
    obtain ⟨rfl, rfl⟩ : mode = 0x00#8 ∧ Instr.alarm1Dec = i := by simpa [decodeAlarmDec, ite_eq_iff] using h
    exact ⟨rfl, rfl⟩
  | true =>
    obtain ⟨rfl, rfl⟩ : mode = 0x80#8 ∧ Instr.alarm2Dec = i := by simpa [decodeAlarmDec, ite_eq_iff] using h
    exact ⟨rfl, rfl⟩

/-- ALARM.ENC and ALARM.SET alike: if each alarm's instruction is well formed with its own modes and has the fields' word,
so has the one the decoder answers. -/
theorem isWordOf_of_decodeAlarmMode {op : Nat} {one two : MatchMode → Instr} {alm : Bool} {mode : Byte} {i : Instr}
    (h : decodeAlarmMode one two alm mode = .operation i)
    (hone : ∀ m : MatchMode, m.alarm = .one → IsWordOf (wordOfFields op false (modeCode m)) (one m))
    (htwo : ∀ m : MatchMode, m.alarm = .two → IsWordOf (wordOfFields op true (modeCode m)) (two m)) :
    IsWordOf (wordOfFields op alm mode) i := by
  obtain ⟨m, rfl, hpair, rfl⟩ := decodeAlarmMode_eq_operation.mp h
  cases halarm : m.alarm with
  | one =>
    obtain rfl : alm = false := by simpa [halarm] using hpair
    exact hone m halarm
  | two =>
    obtain rfl : alm = true := by simpa [halarm] using hpair
    exact htwo m halarm

/-- The decoder answers an operation only on a word with RSV clear, and then as the family of its OP does (R73). -/
theorem decode_operation_cases {w : Word} {i : Instr} (h : decode w = .operation i) :
    rsvField w = 0 ∧
      (opField w = 0x8 ∧ decodeAlarmDec (almField w) (modeField w) = .operation i ∨
       opField w = 0x7 ∧ decodeAlarmMode .alarm1Enc .alarm2Enc (almField w) (modeField w) = .operation i ∨
       opField w = 0x9 ∧ decodeAlarmMode .alarm1Set .alarm2Set (almField w) (modeField w) = .operation i ∨
       almField w = false ∧ modeField w = 0 ∧ decodePlain (opField w) = .operation i) := by
  unfold decode at h
  split at h
  · cases h
  split at h
  · cases h
  next hrsv =>
    refine ⟨not_not.mp hrsv, ?_⟩
    split at h
    next hop => exact .inl ⟨hop, h⟩
    split at h
    next hop => exact .inr (.inl ⟨hop, h⟩)
    split at h
    next hop => exact .inr (.inr (.inl ⟨hop, h⟩))
    split at h
    · cases h
    next hzero =>
      obtain ⟨halm, hmode⟩ := not_or.mp hzero
      exact .inr (.inr (.inr ⟨Bool.eq_false_iff.mpr halm, not_not.mp hmode, h⟩))

/-- A word that decodes to an instruction is the word of that instruction. -/
theorem isWordOf_of_decode {w : Word} {i : Instr} (h : decode w = .operation i) : IsWordOf w i := by
  obtain ⟨hrsv, hcases⟩ := decode_operation_cases h
  rw [← wordOfFields_fields hrsv]
  rcases hcases with ⟨hop, hdec⟩ | ⟨hop, henc⟩ | ⟨hop, hset⟩ | ⟨halm, hmode, hplain⟩
  · rw [hop]
    exact isWordOf_of_decodeAlarmDec hdec
  · rw [hop]
    exact isWordOf_of_decodeAlarmMode henc (fun _ hm => ⟨rfl, decide_eq_true hm⟩) fun _ hm => ⟨rfl, decide_eq_true hm⟩
  · rw [hop]
    exact isWordOf_of_decodeAlarmMode hset (fun _ hm => ⟨rfl, decide_eq_true hm⟩) fun _ hm => ⟨rfl, decide_eq_true hm⟩
  · rw [halm, hmode]
    exact isWordOf_of_decodePlain hplain

/-- Settles O2: the accepted word has RSV clear, so its fields are all of it, and each family's decoder fixes them. -/
theorem encodeOfDecode : Obligations.EncodeOfDecode :=
  fun _ _ => isWordOf_of_decode

/-! ### Words and modes of the tables (R75, R76, R82) -/

/-- Settles O5: six of the words are those of well-formed instructions; of the four that spell none, two have an unlisted or
mismatched mode, one a reserved bit, and one a MODE that is not `ALM << 7`. -/
theorem sampleWordsDecode : Obligations.SampleWordsDecode :=
  ⟨decode_encode (i := .bcdEnc) rfl, decode_encode (i := .timeGet) rfl,
    decode_encode (i := .alarm1Set .a1MatchHours) rfl, decode_encode (i := .alarm2Set .a2MatchDay) rfl,
    decode_encode (i := .alarm2Enc .a2MatchSeconds) rfl, decode_encode (i := .tempGet) rfl,
    by decide, by decide, by decide, by decide⟩

/-- No two modes share a code: the code gives the mode back. -/
theorem modeCode_injective : Function.Injective modeCode := fun m m' h =>
  Option.some.inj <| calc
    some m = modeOfCode (modeCode m) := (modeOfCode_modeCode m).symm
    _ = modeOfCode (modeCode m') := by rw [h]
    _ = some m' := modeOfCode_modeCode m'

theorem modeCode_reserved_bits (m : MatchMode) : (modeCode m).toNat / 32 % 4 = 0 := by
  cases m <;> rfl

theorem modeCode_alarm_two_bit_zero {m : MatchMode} (h : m.alarm = .two) : (modeCode m).getLsbD 0 = false := by
  revert h
  cases m <;> decide

/-- Settles O6: the bits row by row of R76, distinctness because a code gives its mode back. -/
theorem modeCodesKeepTheirShape : Obligations.ModeCodesKeepTheirShape :=
  ⟨fun m => ⟨modeCode_reserved_bits m, modeCode_bit_seven m, modeCode_alarm_two_bit_zero⟩,
    fun _ _ h => modeCode_injective h, modeIsLegal_iff⟩

end Sys2Proof

namespace Sys2Proof.Machine

/-! ### A step on an instruction's own word (R24, R82) -/

/-- Settles O8: the word decodes to its instruction, and the ports are those of the command at hand. -/
theorem stepRunsTheEncodedInstruction : Obligations.StepRunsTheEncodedInstruction :=
  fun _ _ _ _ hw hp => ⟨step_of_operation hp (decode_encode hw), ports_of_pending hp⟩

/-- Settles O12: the pairing check comes first in all four alarm commands that carry a mode. -/
theorem mismatchedModeIsContractViolation : Obligations.MismatchedModeIsContractViolation := by
  intro s m
  constructor
  · intro h
    have hm : m.alarm ≠ .one := ne_of_eq_of_ne h (by decide)
    exact ⟨congrArg Host.Outcome.next (withPairing_other (.alarm1Enc m) s _ hm),
      congrArg Host.Outcome.next (withPairing_other (.alarm1Set m) s _ hm)⟩
  · intro h
    have hm : m.alarm ≠ .two := ne_of_eq_of_ne h (by decide)
    exact ⟨congrArg Host.Outcome.next (withPairing_other (.alarm2Enc m) s _ hm),
      congrArg Host.Outcome.next (withPairing_other (.alarm2Set m) s _ hm)⟩

/-! ### The assembler (R79, R80) -/

theorem alarmWord_enc (alarm : AlarmNumber) (mode : Byte) :
    alarmWord 0x7000#16 alarm mode = wordOfFields 0x7 (alarm = .two) mode := by
  cases alarm <;> rfl

theorem alarmWord_set (alarm : AlarmNumber) (mode : Byte) :
    alarmWord 0x9000#16 alarm mode = wordOfFields 0x9 (alarm = .two) mode := by
  cases alarm <;> rfl

/-- The word of an ALARM.ENC line is judged by its mode byte as written (R79). -/
theorem decode_alarmWord_enc (alarm : AlarmNumber) (mode : Byte) :
    decode (alarmWord 0x7000#16 alarm mode) = decodeAlarmMode .alarm1Enc .alarm2Enc (alarm = .two) mode := by
  rw [alarmWord_enc, decode_alarmEnc_word]

/-- The word of an ALARM.SET line is judged by its mode byte as written (R79). -/
theorem decode_alarmWord_set (alarm : AlarmNumber) (mode : Byte) :
    decode (alarmWord 0x9000#16 alarm mode) = decodeAlarmMode .alarm1Set .alarm2Set (alarm = .two) mode := by
  rw [alarmWord_set, decode_alarmSet_word]

/-- Settles O58: the decoder sees an assembled alarm word as its ALM bit and its MODE byte, and an ALARM.DEC line's word is its
instruction's own. -/
theorem assembledAlarmWordsDecode : Obligations.AssembledAlarmWordsDecode := by
  intro mode sec mi h d
  refine ⟨?legalOne, ?legalTwo, ?unlisted, ?alarmDec⟩
  case legalOne =>
    rintro m hm rfl
    exact ⟨(decode_alarmWord_enc .one _).trans (decodeAlarmMode_alarm_one hm),
      (decode_alarmWord_set .one _).trans (decodeAlarmMode_alarm_one hm)⟩
  case legalTwo =>
    rintro m hm rfl
    exact ⟨(decode_alarmWord_enc .two _).trans (decodeAlarmMode_alarm_two hm),
      (decode_alarmWord_set .two _).trans (decodeAlarmMode_alarm_two hm)⟩
  case unlisted =>
    intro hmode
    exact ⟨(decode_alarmWord_enc .one mode).trans (decodeAlarmMode_unlisted hmode),
      (decode_alarmWord_set .one mode).trans (decodeAlarmMode_unlisted hmode),
      (decode_alarmWord_enc .two mode).trans (decodeAlarmMode_unlisted hmode),
      (decode_alarmWord_set .two mode).trans (decodeAlarmMode_unlisted hmode)⟩
  case alarmDec =>
    exact fun _ => ⟨decode_encode (i := .alarm1Dec) rfl, decode_encode (i := .alarm2Dec) rfl⟩

/-- A line and its expansion assemble to one command (R80; for the short form of ALARM.SET 1, log 26). -/
theorem assemble_expand (line : AsmLine) : line.expand.assemble = line.assemble := by
  cases line <;> rfl

/-- Settles O57: each clause is `assemble_expand` at one pseudo-instruction. -/
theorem pseudoInstructionsAreTheirExpansions : Obligations.PseudoInstructionsAreTheirExpansions :=
  fun mode mi h d t =>
    ⟨(assemble_expand (.alarm1EncNoSeconds mode mi h d)).symm, (assemble_expand (.alarm1SetNoSeconds mode mi h d)).symm,
      (assemble_expand .timeRd).symm, (assemble_expand (.timeWr t)).symm, (assemble_expand .tempRd).symm⟩

end Sys2Proof.Machine
end

section
/-! PROOFS of the family 40_bcd.md: the two BCD commands, the nibbles of an encoded byte, the wrap from
160 on, and the five laws. -/

namespace Sys2Proof.Machine

/-! ### The operand of BCD.ENC (R101, D4) -/

theorem bcdWide_of_byte {n : Int} (h0 : 0 ≤ n) (h : n ≤ 255) : (bcdWide n : Int) = n := by
  unfold bcdWide
  omega

/-- The encoder reads an operand only through its narrowing. -/
theorem bcdEncWith_congr {wide wide' : Int → Nat} {n : Int} (h : wide n = wide' n) :
    bcdEncWith wide n = bcdEncWith wide' n := by
  simp only [bcdEncWith, h]

theorem bcdEnc_emod (n : Int) : bcdEnc n = bcdEnc (n % 256) := by
  simp only [bcdEnc, bcdEncWith, bcdWide, Int.emod_emod]

/-- Settles O17: two narrowings that leave an operand alone agree on it, and BCD_WIDE is one of them on 0..255. -/
theorem bcdEncNeedsNoNarrowingInRange : Obligations.BcdEncNeedsNoNarrowingInRange := by
  intro wide hwide n h0 h
  have hsame : wide n = bcdWide n := by exact_mod_cast (hwide n h0 h).trans (bcdWide_of_byte h0 h).symm
  exact bcdEncWith_congr hsame

/-! ### The byte BCD.ENC gives (R100, R101) -/

section NoWrap
variable {n : Int} (h0 : 0 ≤ n) (h : n ≤ 159)
include h0 h

theorem highNibble_bcdEnc : (highNibble (bcdEnc n) : Int) = n / 10 := by
  rw [highNibble, bcdEnc_toNat_of_le h0 h]
  omega

theorem lowNibble_bcdEnc : (lowNibble (bcdEnc n) : Int) = n % 10 := by
  rw [lowNibble, bcdEnc_toNat_of_le h0 h]
  omega

/-- From 100 on the high nibble is no decimal digit. -/
theorem validBcd_bcdEnc : validBcd (bcdEnc n) = decide (n ≤ 99) := by
  have hhigh := highNibble_bcdEnc h0 h
  have hlow := lowNibble_bcdEnc h0 h
  rw [validBcd, ← Bool.decide_and, decide_eq_decide]
  omega

end NoWrap

section Wrap
variable {n : Int} (h0 : 160 ≤ n) (h : n ≤ 255)
include h0 h

/-- From 160 on the packed value is 256 or more and wraps once. -/
theorem bcdEnc_toNat_of_wrap : ((bcdEnc n).toNat : Int) = n / 10 * 16 + n % 10 - 256 := by
  rw [bcdEnc_toNat]
  omega

/-- The wrap takes away sixteen tens. -/
theorem bcdEnc_of_wrap : bcdEnc n = bcdEnc (n - 160) := by
  apply BitVec.eq_of_toNat_eq
  have hwrap := bcdEnc_toNat_of_wrap h0 h
  have hrest := bcdEnc_toNat_of_le (n := n - 160) (by omega) (by omega)
  omega

end Wrap

/-! ### The two commands (R101, R102) -/

theorem exec_bcdEnc (s : State) : exec .bcdEnc s =
    .next (s.ended (pureOutcome (fun n => .byte (bcdEnc n)) (decimalOperand s.ports))) :=
  congrArg Host.Outcome.next (withOperands_succeed _ s _)

theorem exec_bcdDec (s : State) : exec .bcdDec s =
    .next (s.ended (pureOutcome (fun b => .nat (bcdDec b)) (byteOperand s.ports))) :=
  congrArg Host.Outcome.next (withOperands_succeed _ s _)

/-- Settles O14: the command records a function of its port, and the byte follows R101 on each of its three ranges. -/
theorem bcdEncPacksTwoDigits : Obligations.BcdEncPacksTwoDigits := by
  refine ⟨rfl, ?supplied, ?missing, bcdEnc_toNat, ?valid, ?invalid, fun _ => bcdEnc_toNat_of_wrap, bcdEnc_emod, ?examples⟩
  case supplied =>
    intro s n hn
    rw [exec_bcdEnc, decimalOperand, hn]
    rfl
  case missing =>
    intro s hn
    rw [EndsInvalidArgument, exec_bcdEnc, decimalOperand, hn]
    rfl
  case valid =>
    intro n h0 h
    have h159 : n ≤ 159 := by omega
    exact ⟨by simp [validBcd_bcdEnc h0 h159, h], highNibble_bcdEnc h0 h159, lowNibble_bcdEnc h0 h159⟩
  case invalid =>
    intro n h0 h
    have h0' : 0 ≤ n := by omega
    have hbyte := bcdEnc_toNat_of_le h0' h
    have hvalid : validBcd (bcdEnc n) = false := by
      rw [validBcd_bcdEnc h0' h, decide_eq_false_iff_not]
      omega
    exact ⟨by omega, hvalid, by omega⟩
  case examples => decide

/-- Settles O15: the command records a function of its port, and that function weighs the nibbles of every byte by 10 and 1. -/
theorem bcdDecWeighsTwoNibbles : Obligations.BcdDecWeighsTwoNibbles := by
  refine ⟨rfl, ?supplied, ?missing, fun b => ⟨bcdDec_eq b, bcdDec_le b⟩, ?examples⟩
  case supplied =>
    intro s b hb
    rw [exec_bcdDec, byteOperand, hb, ← bcdDec_eq]
    rfl
  case missing =>
    intro s hb
    rw [EndsInvalidArgument, exec_bcdDec, byteOperand, hb]
    rfl
  case examples => decide

/-! ### The laws (R103) -/

/-- Law 2 past the wrap. -/
theorem bcdDec_bcdEnc_of_wrap {n : Int} (h0 : 160 ≤ n) (h : n ≤ 255) : (bcdDec (bcdEnc n) : Int) = n - 160 := by
  rw [bcdEnc_of_wrap h0 h]
  exact bcdDec_bcdEnc (by omega) (by omega)

/-- Law 3: a low nibble of 10 or more carries into the tens, and the encoder cannot give it back. -/
theorem bcdEnc_bcdDec_iff (b : Byte) : bcdEnc (bcdDec b : Int) = b ↔ b.toNat % 16 ≤ 9 := by
  have hb := b.isLt
  have hle := bcdDec_le b
  have hwide : ((bcdDec b : Int) % 256).toNat = bcdDec b := by omega
  rw [← BitVec.toNat_inj, bcdEnc_toNat, hwide, bcdDec_eq]
  omega

/-- Law 4: on 0..159 the decoder is a left inverse of the encoder. -/
theorem bcdEnc_injective_of_le {n m : Int} (hn0 : 0 ≤ n) (hn : n ≤ 159) (hm0 : 0 ≤ m) (hm : m ≤ 159)
    (h : bcdEnc n = bcdEnc m) : n = m := by
  rw [← bcdDec_bcdEnc hn0 hn, h, bcdDec_bcdEnc hm0 hm]

/-- Law 5 for the decoder: each nibble has its own weight, and no carry passes between them. -/
theorem bcdDec_ofNibbles {hi lo : Nat} (hhi : hi < 16) (hlo : lo < 16) :
    bcdDec (BitVec.ofNat 8 (hi * 16 + lo)) = hi * 10 + lo := by
  rw [bcdDec_eq, BitVec.toNat_ofNat]
  omega

/-- Settles O16: the five laws in R103's order, the first two as one round trip below the wrap and one past it. -/
theorem bcdRoundTripLaws : Obligations.BcdRoundTripLaws :=
  ⟨fun _ => bcdDec_bcdEnc, fun _ => bcdDec_bcdEnc_of_wrap, bcdEnc_bcdDec_iff, fun _ _ => bcdEnc_injective_of_le,
    fun _ _ => bcdDec_ofNibbles, fun _ h0 h => ⟨highNibble_bcdEnc h0 h, lowNibble_bcdEnc h0 h⟩⟩

end Sys2Proof.Machine
end

section
/-! PROOFS of the family 41_time.md: the port checks, the bytes of the time block and what they decode to, the range on which
the block round-trips, and the two transaction commands. -/

namespace Sys2Proof.Machine

/-! ### The port checks (R123, R124, R212) -/

/-- A command that takes its timestamp by `withOperands` refuses a missing one, and one that lacks a field. -/
theorem timestampChecked_withOperands (s : State) (k : Timestamp → State) :
    TimestampChecked s (.next (withOperands (timestampOperand s.ports) s k)) := by
  refine ⟨fun hts => ?_, fun p hts hfield => ?_⟩
  · rw [timestampOperand, hts]
    exact congrArg Host.Outcome.next (withOperands_error .ts s k)
  · rw [timestampOperand, hts, Option.bind_some, complete_eq_none hfield]
    exact congrArg Host.Outcome.next (withOperands_error .ts s k)

/-- A command that takes its buffer by `withOperands` refuses a missing one, and one of another length. -/
theorem bufferChecked_withOperands (len : Nat) (s : State) (k : List Byte → State) :
    BufferChecked len s (.next (withOperands (bufferOperand len s.ports) s k)) := by
  refine ⟨fun hbuf => ?_, fun bytes hbuf hlen => ?_⟩
  · rw [bufferOperand, hbuf]
    exact congrArg Host.Outcome.next (withOperands_error .buf s k)
  · rw [bufferOperand, hbuf]
    simp only [if_neg hlen]
    exact congrArg Host.Outcome.next (withOperands_error .buf s k)

/-! ### The commands (R123, R124, R125, R126) -/

theorem exec_timeEnc (s : State) : exec .timeEnc s =
    .next (s.ended (pureOutcome (fun t => .block Config.timeBase (timeBytes t)) (timestampOperand s.ports))) :=
  congrArg Host.Outcome.next (withOperands_succeed _ s _)

theorem exec_timeDec (s : State) : exec .timeDec s =
    .next (s.ended (pureOutcome (fun bytes => .timestamp (timeOfBytes bytes)) (bufferOperand Config.timeLen s.ports))) :=
  congrArg Host.Outcome.next (withOperands_succeed _ s _)

theorem exec_timeSet {s : State} {t : Timestamp} (h : s.ports.ts = some t.toPort) :
    SetByOneWrite s Config.timeBase (timeBytes t) (exec .timeSet s) := by
  have hexec : exec .timeSet s = .next (endSet (writeOnce Config.timeBase (timeBytes t) s)) := by
    simp only [exec, execTimeSet, timestampOperand_supplied h, withOperands_ok]
  rw [hexec]
  exact writeOnce_spec Config.timeBase (timeBytes t) s (by simp)

theorem exec_timeGet (s : State) :
    GetByOneRead s Config.timeBase Config.timeLen (fun bytes => .timestamp (timeOfBytes bytes)) (exec .timeGet s) :=
  readThen_spec Config.timeBase Config.timeLen _ s

/-! ### The century, bit 7 and the low bits of a byte (R101, R121) -/

theorem centuryOf_eq_true {year : Int} : centuryOf year = true ↔ 2000 ≤ year := decide_eq_true_iff

theorem centuryOf_of_le {year : Int} (h : 2000 ≤ year) : centuryOf year = true := centuryOf_eq_true.mpr h

theorem centuryOf_of_lt {year : Int} (h : year < 2000) : centuryOf year = false := decide_eq_false (by omega)

/-- Bit 7 of an encoded byte is set from 80 on. -/
theorem bcdEnc_getLsbD_seven {n : Int} (h0 : 0 ≤ n) (h : n ≤ 159) : (bcdEnc n).getLsbD 7 = decide (80 ≤ n) := by
  rw [getLsbD_seven, bcdEnc_toNat_of_le h0 h, decide_eq_decide]
  omega

/-- The century flag is ORed into bit 7. -/
theorem or_centuryFlag_getLsbD_seven (b : Byte) (c : Bool) : (b ||| centuryFlag c).getLsbD 7 = (b.getLsbD 7 || c) := by
  cases c <;> simp [centuryFlag]

/-- The month mask removes the century flag. -/
theorem or_centuryFlag_and_1F (b : Byte) (c : Bool) : (b ||| centuryFlag c) &&& 0x1F#8 = b &&& 0x1F#8 := by
  rw [BitVec.and_comm, BitVec.and_or_distrib_left, BitVec.and_comm]
  cases c <;> simp [centuryFlag]

/-! ### The bytes of the time block (R120, R121, R122) -/

section Block
variable (t : Timestamp)

theorem dayByte_timeBytes : byteAt (timeBytes t) 3 = bcdEnc (t.dayOfWeek % 7 + 1) := rfl

theorem monthByte_timeBytes : byteAt (timeBytes t) 5 = bcdEnc t.month ||| centuryFlag (centuryOf t.year) := rfl

theorem yearByte_timeBytes : byteAt (timeBytes t) 6 = bcdEnc (t.year - centuryBase (centuryOf t.year)) := rfl

/-- A month below 80 leaves bit 7 to the century. -/
theorem centuryBit_timeBytes {t : Timestamp} (h0 : 0 ≤ t.month) (h : t.month ≤ 79) :
    (byteAt (timeBytes t) 5).getLsbD 7 = centuryOf t.year := by
  have hmonth : ¬ 80 ≤ t.month := by omega
  rw [monthByte_timeBytes, or_centuryFlag_getLsbD_seven, bcdEnc_getLsbD_seven h0 (by omega), decide_eq_false hmonth,
    Bool.false_or]

/-- The stored day of week decodes to itself, being in 1..7. -/
theorem bcdDec_dayByte : (bcdDec (byteAt (timeBytes t) 3) : Int) = t.dayOfWeek % 7 + 1 := by
  rw [dayByte_timeBytes, bcdDec_bcdEnc (by omega) (by omega)]

end Block

/-! ### The block read back (R124, R128) -/

/-- The decoded month: the century flag is masked away. -/
theorem timeOfBytes_timeBytes_month (t : Timestamp) :
    (timeOfBytes (timeBytes t)).month = bcdDec (bcdEnc t.month &&& 0x1F#8) :=
  congrArg (fun b => (bcdDec b : Int)) (or_centuryFlag_and_1F _ _)

/-- The decoded year, where the month leaves bit 7 to the century. -/
theorem timeOfBytes_timeBytes_year {t : Timestamp} (h0 : 0 ≤ t.month) (h : t.month ≤ 79) :
    (timeOfBytes (timeBytes t)).year =
      centuryBase (centuryOf t.year) + bcdDec (bcdEnc (t.year - centuryBase (centuryOf t.year))) := by
  rw [← yearByte_timeBytes, ← centuryBit_timeBytes h0 h]
  rfl

/-- The day of week is reported 0-based. -/
theorem timeOfBytes_timeBytes_dayOfWeek (t : Timestamp) : (timeOfBytes (timeBytes t)).dayOfWeek = t.dayOfWeek % 7 := by
  have hday : (timeOfBytes (timeBytes t)).dayOfWeek = bcdDec (byteAt (timeBytes t) 3) - 1 := rfl
  rw [hday, bcdDec_dayByte]
  omega

/-- An encoded byte has a decimal low nibble, so it decodes to 159 at most. -/
theorem bcdDec_bcdEnc_le (n : Int) : bcdDec (bcdEnc n) ≤ 159 := by
  rw [bcdDec_eq, bcdEnc_toNat]
  omega

/-- Under the month mask, one bit of the high nibble is left. -/
theorem bcdDec_bcdEnc_and_1F_le (n : Int) : bcdDec (bcdEnc n &&& 0x1F#8) ≤ 19 := by
  rw [bcdDec_eq, toNat_and_1F, bcdEnc_toNat]
  omega

/-- Below 20 an encoded month lies under the month mask. -/
theorem bcdDec_bcdEnc_and_1F {n : Int} (h0 : 0 ≤ n) (h : n ≤ 19) : (bcdDec (bcdEnc n &&& 0x1F#8) : Int) = n := by
  rw [bcdDec_eq, toNat_and_1F, bcdEnc_toNat_of_le h0 (by omega)]
  omega

/-- R128's wide range: the day of week is free. -/
structure Timestamp.InWideRange (t : Timestamp) : Prop where
  second : 0 ≤ t.second ∧ t.second ≤ 159
  minute : 0 ≤ t.minute ∧ t.minute ≤ 159
  hour : 0 ≤ t.hour ∧ t.hour ≤ 159
  day : 0 ≤ t.day ∧ t.day ≤ 159
  month : 0 ≤ t.month ∧ t.month ≤ 19
  year : 1900 ≤ t.year ∧ t.year ≤ 2159

/-- Whatever is encoded, what comes back lies in the wide range. -/
theorem timeOfBytes_timeBytes_inWideRange (t : Timestamp) : (timeOfBytes (timeBytes t)).InWideRange := by
  have hfield (n : Int) : 0 ≤ (bcdDec (bcdEnc n) : Int) ∧ (bcdDec (bcdEnc n) : Int) ≤ 159 :=
    ⟨by omega, by exact_mod_cast bcdDec_bcdEnc_le n⟩
  refine ⟨hfield _, hfield _, hfield _, hfield _, ?month, ?year⟩
  case month =>
    have := bcdDec_bcdEnc_and_1F_le t.month
    rw [timeOfBytes_timeBytes_month]
    omega
  case year =>
    have := bcdDec_bcdEnc_le (t.year - centuryBase (centuryOf t.year))
    simp only [timeOfBytes, yearByte_timeBytes, centuryBase] at this ⊢
    split <;> omega

/-- The year of the wide range is 0 to 159 years into its century. -/
theorem yearOfCentury_le_159 {year : Int} (h0 : 1900 ≤ year) (h : year ≤ 2159) :
    0 ≤ year - centuryBase (centuryOf year) ∧ year - centuryBase (centuryOf year) ≤ 159 := by
  rcases lt_or_ge year 2000 with hy | hy
  · rw [centuryOf_of_lt hy, centuryBase, if_neg Bool.false_ne_true]
    omega
  · rw [centuryOf_of_le hy, centuryBase, if_pos rfl]
    omega

/-- A year of the wide range comes back, where the month leaves bit 7 to the century. -/
theorem timeOfBytes_timeBytes_year_eq {t : Timestamp} (hm0 : 0 ≤ t.month) (hm : t.month ≤ 79) (h0 : 1900 ≤ t.year)
    (h : t.year ≤ 2159) : (timeOfBytes (timeBytes t)).year = t.year := by
  obtain ⟨hyear0, hyear⟩ := yearOfCentury_le_159 h0 h
  rw [timeOfBytes_timeBytes_year hm0 hm, bcdDec_bcdEnc hyear0 hyear]
  omega

/-- The round trip, field by field. -/
theorem timeOfBytes_timeBytes {t : Timestamp} (h : t.InWideRange) :
    timeOfBytes (timeBytes t) = { t with dayOfWeek := t.dayOfWeek % 7 } := by
  obtain ⟨⟨hs0, hs⟩, ⟨hmi0, hmi⟩, ⟨hh0, hh⟩, ⟨hd0, hd⟩, ⟨hm0, hm⟩, ⟨hy0, hy⟩⟩ := h
  have hmonth := (timeOfBytes_timeBytes_month t).trans (bcdDec_bcdEnc_and_1F hm0 hm)
  have hyear := timeOfBytes_timeBytes_year_eq hm0 (by omega) hy0 hy
  exact (Timestamp.mk.injEq ..).mpr ⟨hyear, hmonth, bcdDec_bcdEnc hd0 hd, bcdDec_bcdEnc hh0 hh, bcdDec_bcdEnc hmi0 hmi,
    bcdDec_bcdEnc hs0 hs, timeOfBytes_timeBytes_dayOfWeek t⟩

/-- The wide range is exactly where the round trip holds. -/
theorem timeOfBytes_timeBytes_iff (t : Timestamp) :
    timeOfBytes (timeBytes t) = { t with dayOfWeek := t.dayOfWeek % 7 } ↔ t.InWideRange := by
  refine ⟨fun h => ?_, timeOfBytes_timeBytes⟩
  obtain ⟨hsecond, hminute, hhour, hday, hmonth, hyear⟩ := h ▸ timeOfBytes_timeBytes_inWideRange t
  exact ⟨hsecond, hminute, hhour, hday, hmonth, hyear⟩

/-- A row of R127's table: the year byte of `year`, and the year that byte decodes to. -/
theorem yearByte_and_decodedYear {t : Timestamp} (h0 : 0 ≤ t.month) (h : t.month ≤ 19) {year : Int} {yearByte : Byte}
    (hbyte : bcdEnc (year - centuryBase (centuryOf year)) = yearByte) (hy : t.year = year) :
    byteAt (timeBytes t) 6 = yearByte ∧
      (timeOfBytes (timeBytes t)).year = centuryBase (centuryOf year) + bcdDec yearByte := by
  subst hy hbyte
  exact ⟨yearByte_timeBytes t, timeOfBytes_timeBytes_year h0 (by omega)⟩

/-! ### Reading a block back under the simulator oracle (R47) -/

/-- Under the simulator oracle a read of a listed block draws that block. -/
theorem drawn_of_simulator {s : State} {a : Byte} {bytes : List Byte} (ht : s.transport = .simulator)
    (hblock : ∀ i, i < bytes.length → s.image.read (a + BitVec.ofNat 8 i) = bytes[i]?) :
    s.drawn a bytes.length = bytes := by
  refine List.ext_getElem? fun i => ?_
  rcases lt_or_ge i bytes.length with hi | hi
  · have hread : s.image.read (a + BitVec.ofNat 8 i) = some bytes[i] := (hblock i hi).trans (List.getElem?_eq_getElem hi)
    rw [drawn_getElem? s a hi, drawnByte_of_simulator ht hread, List.getElem?_eq_getElem hi]
  · rw [List.getElem?_eq_none (by simpa using hi), List.getElem?_eq_none hi]

/-- Without a script the simulator oracle completes (log 8). -/
theorem completes_of_unscripted_simulator {s : State} (ht : s.transport = .simulator) (hr : s.replies = []) :
    s.completes = true := by
  simp only [State.completes, State.scripted, ht, hr, List.head?_nil]

/-- What a completed TIME.SET leaves to the next command. -/
theorem exec_timeSet_completes {s : State} {t : Timestamp} (hts : s.ports.ts = some t.toPort) (hc : s.completes = true) :
    ∃ u, exec .timeSet s = .next u ∧ u.pending = s.pending.tail ∧ u.transport = s.transport ∧
      u.replies = (s.inputsUsed 1).replies ∧ u.outcomes = s.outcomes ++ [.ok .unit] ∧
      s.image.HoldsBlock u.image Config.timeBase (timeBytes t) := by
  obtain ⟨image, hexec, hblock⟩ := (exec_timeSet hts).1 hc
  exact ⟨_, hexec, rfl, rfl, rfl, rfl, hblock⟩

/-- TIME.GET under the simulator oracle answers the timestamp of the block that the image holds. -/
theorem exec_timeGet_of_block {s : State} {bytes : List Byte} (ht : s.transport = .simulator) (hc : s.completes = true)
    (hlen : bytes.length = Config.timeLen)
    (hblock : ∀ i, i < bytes.length → s.image.read (Config.timeBase + BitVec.ofNat 8 i) = bytes[i]?) :
    ∃ u, exec .timeGet s = .next u ∧ u.pending = s.pending.tail ∧
      u.outcomes = s.outcomes ++ [.ok (.timestamp (timeOfBytes bytes))] := by
  obtain ⟨-, hexec⟩ := (exec_timeGet s).1 hc
  refine ⟨_, hexec, rfl, ?_⟩
  rw [← hlen, drawn_of_simulator ht hblock]
  rfl

/-! ### The statements -/

/-- Settles O18: the command records a function of its port; the corner cases read single bytes of the block. -/
theorem timeEncBuildsTheBlock : Obligations.TimeEncBuildsTheBlock := by
  refine ⟨rfl, ?supplied, fun s => timestampChecked_withOperands s _, ?block, ?year1999, ?year2000, ?storedSeven,
    ?storedOne, ?bitSeven, ?month80, by decide⟩
  case supplied =>
    intro s t hts
    rw [exec_timeEnc, timestampOperand_supplied hts]
    rfl
  case block =>
    intro t
    rcases lt_or_ge t.year 2000 with hy | hy
    · rw [if_neg (by omega), if_neg (by omega), timeBytes, centuryOf_of_lt hy]
      rfl
    · rw [if_pos hy, if_pos hy, timeBytes, centuryOf_of_le hy]
      rfl
  case year1999 =>
    intro t hy
    rw [yearByte_timeBytes, hy]
    decide
  case year2000 =>
    intro t hy
    rw [yearByte_timeBytes, hy]
    decide
  case storedSeven =>
    intro t hd
    have hmod : t.dayOfWeek % 7 = 6 := by omega
    rw [dayByte_timeBytes, hmod]
    decide
  case storedOne =>
    intro t hd
    rw [dayByte_timeBytes, hd]
    decide
  case bitSeven =>
    intro t h0 h
    rw [bcdEnc_getLsbD_seven (by omega) h, decide_eq_true h0]
  case month80 =>
    intro t hm hy
    rw [monthByte_timeBytes, hm, hy]
    decide

/-- Settles O19: the command records a function of its port, and that function is R124's by definition. -/
theorem timeDecReadsTheBlock : Obligations.TimeDecReadsTheBlock := by
  refine ⟨rfl, ?supplied, fun s => bufferChecked_withOperands 7 s _, fun _ _ _ _ _ _ _ => rfl, by decide⟩
  intro s bytes hbuf hlen
  rw [exec_timeDec, bufferOperand_supplied hbuf hlen]
  rfl

/-- Settles O20: a complete timestamp is one write of its block, and the port check comes before it. -/
theorem timeSetWritesTheBlockOnce : Obligations.TimeSetWritesTheBlockOnce :=
  ⟨rfl, fun _ _ => exec_timeSet, fun s => timestampChecked_withOperands s _,
    fun _ t _ => ⟨rfl, timeBytes_length t⟩, by decide⟩

/-- Settles O21: the command is one read and its decoding; in the example the draw is the block of the image. -/
theorem timeGetDecodesOneRead : Obligations.TimeGetDecodesOneRead := by
  refine ⟨rfl, exec_timeGet, fun _ _ _ => rfl, fun s ht hc himage => ?_⟩
  obtain ⟨u, hexec, -, houtcomes⟩ := exec_timeGet_of_block ht hc
    (bytes := [0x30#8, 0x45#8, 0x13#8, 0x05#8, 0x29#8, 0x82#8, 0x24#8]) rfl
    fun i hi => by rw [BitVec.zero_add]; exact himage i hi
  have hdecoded : timeOfBytes [0x30#8, 0x45#8, 0x13#8, 0x05#8, 0x29#8, 0x82#8, 0x24#8] = ⟨2024, 2, 29, 13, 45, 30, 4⟩ := by
    decide
  exact ⟨u, hexec, hdecoded ▸ houtcomes⟩

/-- Settles O22: on encode the flag is ORed into the month byte; on decode neither mask sees bits 6:5. -/
theorem centuryBitFollowsTheYear : Obligations.CenturyBitFollowsTheYear := by
  refine ⟨?bitSeven, fun t => ⟨?from2000, ?before2000⟩, fun b0 b1 b2 b3 b4 b5 b6 => ⟨?set, ?clear, ?reserved⟩⟩
  case bitSeven =>
    intro t h0 h
    rw [centuryBit_timeBytes h0 h, centuryOf_eq_true]
  case from2000 =>
    intro hy
    rw [monthByte_timeBytes, yearByte_timeBytes, centuryOf_of_le hy]
    exact ⟨rfl, rfl⟩
  case before2000 =>
    intro hy
    rw [monthByte_timeBytes, yearByte_timeBytes, centuryOf_of_lt hy]
    exact ⟨BitVec.or_zero, rfl⟩
  case set => exact congrArg fun c => centuryBase c + (bcdDec b6 : Int)
  case clear => exact congrArg fun c => centuryBase c + (bcdDec b6 : Int)
  case reserved =>
    have hseven : (b5 ||| 0x60#8).getLsbD 7 = (b5 &&& 0x9F#8).getLsbD 7 := by simp
    have hmonth : (b5 ||| 0x60#8) &&& 0x1F#8 = b5 &&& 0x9F#8 &&& 0x1F#8 := by
      rw [BitVec.and_assoc, BitVec.and_comm, BitVec.and_or_distrib_left, BitVec.and_comm]
      simp
    simp only [timeOfBytes, byteAt_cons_succ, byteAt_cons_zero, hseven, hmonth]

/-- Settles O23: the stored day decodes to the Euclidean remainder plus 1, which is the truncating one where the shifted
operand is not negative. -/
theorem dayOfWeekIsStoredOneToSeven : Obligations.DayOfWeekIsStoredOneToSeven := by
  intro t
  have hday := bcdDec_dayByte t
  refine ⟨by omega, hday, ?_, fun h => ?_, timeOfBytes_timeBytes_dayOfWeek t⟩
  · simp only [dayByte_timeBytes, Int.add_emod_right]
  · rw [hday, Int.tmod_eq_emod_of_nonneg (by omega), Int.add_emod_right]

/-- Settles O24: the round trip holds exactly on the wide range, and each failing field is outside it. -/
theorem timeRoundTripLaws : Obligations.TimeRoundTripLaws := by
  refine ⟨?wide, ?outside, ?boundary⟩
  case wide =>
    intro t hs0 hs hmi0 hmi hh0 hh hd0 hd hm0 hm hy0 hy
    exact timeOfBytes_timeBytes ⟨⟨hs0, hs⟩, ⟨hmi0, hmi⟩, ⟨hh0, hh⟩, ⟨hd0, hd⟩, ⟨hm0, hm⟩, ⟨hy0, hy⟩⟩
  case outside =>
    intro t hfield
    rw [ne_eq, timeOfBytes_timeBytes_iff]
    rintro ⟨hsecond, hminute, hhour, hday, hmonth, hyear⟩
    omega
  case boundary =>
    intro t u ht hu ht0 htm hu0 hum
    rw [centuryBit_timeBytes ht0 htm, centuryBit_timeBytes hu0 hum, yearByte_timeBytes, yearByte_timeBytes, ht, hu]
    decide

/-- Settles O25: the table row by row; the other years by whether they lie in the wide range, where every decoded year
does. -/
theorem yearsOutsideTheRangeAlias : Obligations.YearsOutsideTheRangeAlias := by
  intro t h0 h
  have h79 : t.month ≤ 79 := by omega
  have row {year : Int} {yearByte : Byte} := yearByte_and_decodedYear h0 h (year := year) (yearByte := yearByte)
  refine ⟨row (by decide), row (by decide), row (by decide), row (by decide), row (by decide), row (by decide),
    row (by decide), ?century, ?above, ?outside⟩
  case century => rw [centuryBit_timeBytes h0 h79, centuryOf_eq_true]
  case above =>
    intro hy0 hy
    refine ⟨timeOfBytes_timeBytes_year_eq h0 h79 (by omega) hy, ?_⟩
    rw [yearByte_timeBytes, centuryOf_of_le (by omega), centuryBase, if_pos rfl,
      validBcd_bcdEnc (by omega) (by omega), decide_eq_false_iff_not]
    omega
  case outside =>
    intro hy heq
    have hdecoded := (timeOfBytes_timeBytes_inWideRange t).year
    omega

/-- Settles O26: TIME.SET leaves its block in the image and the script empty, so TIME.GET draws that block. -/
theorem simulatorReadsBackTheTimeSet : Obligations.SimulatorReadsBackTheTimeSet := by
  intro s t p rest ht hr hp hs0 hs hmi0 hmi hh0 hh hd0 hd hm0 hm hy0 hy
  have hround := timeOfBytes_timeBytes ⟨⟨hs0, hs⟩, ⟨hmi0, hmi⟩, ⟨hh0, hh⟩, ⟨hd0, hd⟩, ⟨hm0, hm⟩, ⟨hy0, hy⟩⟩
  obtain ⟨hset, hports⟩ := stepRunsTheEncodedInstruction s .timeSet _ _ rfl hp
  have hts : s.ports.ts = some t.toPort := by rw [hports]
  obtain ⟨u, hexec, hupending, hutransport, hureplies, huoutcomes, hblock, -⟩ :=
    exec_timeSet_completes hts (completes_of_unscripted_simulator ht hr)
  rw [hp, List.tail_cons] at hupending
  rw [ht] at hutransport
  have hunscripted : u.replies = [] := by simp [hureplies, hr]
  obtain ⟨hget, -⟩ := stepRunsTheEncodedInstruction u .timeGet _ _ rfl hupending
  obtain ⟨v, hv, hvpending, hvoutcomes⟩ := exec_timeGet_of_block hutransport
    (completes_of_unscripted_simulator hutransport hunscripted) (timeBytes_length t) hblock
  refine ⟨u, v, hset.trans hexec, hget.trans hv, by rw [hvpending, hupending, List.tail_cons], ?_⟩
  rw [hvoutcomes, huoutcomes, hround, List.append_assoc, List.singleton_append]

end Sys2Proof.Machine
end

section
/-! PROOFS of the family 42_alarm.md: the flag bits of an alarm byte, the blocks and what they decode to, the commands in
terms of their operands, and the image a SET leaves under either setting of ALARM_COALESCE. -/

namespace Sys2Proof

/-- The code of an alarm-1 mode has no alarm-2 bit (R75). -/
theorem modeCode_alarm_one_bit_seven {m : MatchMode} (h : m.alarm = .one) : (modeCode m).getLsbD 7 = false := by
  rw [Bool.eq_false_iff, ne_eq, modeCode_bit_seven, h]
  decide

/-- Which alarm it is, is whether it is alarm 2. -/
theorem AlarmNumber.eq_of_two_iff {x y : AlarmNumber} (h : x = .two ↔ y = .two) : x = y := by
  cases x <;> cases y <;> simp at h ⊢

/-- A mode byte that is the code of no mode of the alarm that ALM names is refused (R77). -/
theorem decodeAlarmMode_of_not_own {one two : MatchMode → Instr} {alarm : AlarmNumber} {mode : Byte}
    (h : ∀ m : MatchMode, m.alarm = alarm → modeCode m ≠ mode) :
    decodeAlarmMode one two (alarm = .two) mode = .contractViolation := by
  unfold decodeAlarmMode
  split
  · rfl
  next m hm =>
    have hcode : modeCode m = mode := modeCode_of_modeOfCode hm
    refine if_pos fun hbit => h m (AlarmNumber.eq_of_two_iff ?_) hcode
    rw [← modeCode_bit_seven, hcode, hbit, decide_eq_true_iff]

end Sys2Proof

namespace Sys2Proof.Machine

/-! ### The flag bits of an alarm byte (R150, R152) -/

/-- A don't-care flag is ORed into bit 7. -/
theorem or_dontCare_getLsbD_seven (b : Byte) (c : Bool) : (b ||| dontCare c).getLsbD 7 = (b.getLsbD 7 || c) := by
  cases c <;> simp [dontCare]

/-- The value mask of a field removes the don't-care flag. -/
theorem or_dontCare_and_7F (b : Byte) (c : Bool) : (b ||| dontCare c) &&& 0x7F#8 = b &&& 0x7F#8 := by
  rw [BitVec.and_comm, BitVec.and_or_distrib_left, BitVec.and_comm]
  cases c <;> simp [dontCare]

/-- The day's don't-care flag is ORed into bit 7, where DY/DT has no part. -/
theorem or_dayFlags_getLsbD_seven (b : Byte) (c dy : Bool) :
    (b ||| (dontCare c ||| dayNotDate dy)).getLsbD 7 = (b.getLsbD 7 || c) := by
  cases c <;> cases dy <;> simp [dontCare, dayNotDate]

/-- DY/DT is ORed into bit 6. -/
theorem or_dayFlags_getLsbD_six (b : Byte) (c dy : Bool) :
    (b ||| (dontCare c ||| dayNotDate dy)).getLsbD 6 = (b.getLsbD 6 || dy) := by
  cases c <;> cases dy <;> simp [dontCare, dayNotDate]

/-- The value mask of the day removes both its flags. -/
theorem or_dayFlags_and_3F (b : Byte) (c dy : Bool) :
    (b ||| (dontCare c ||| dayNotDate dy)) &&& 0x3F#8 = b &&& 0x3F#8 := by
  rw [BitVec.and_comm, BitVec.and_or_distrib_left, BitVec.and_comm]
  cases c <;> cases dy <;> simp [dontCare, dayNotDate]

/-- Below 80, bit 7 of an encoded byte is clear. -/
theorem bcdEnc_getLsbD_seven_clear {n : Int} (h0 : 0 ≤ n) (h : n ≤ 79) : (bcdEnc n).getLsbD 7 = false := by
  rw [bcdEnc_getLsbD_seven h0 (by omega), decide_eq_false_iff_not]
  omega

/-- Below 80, bit 6 of an encoded byte is set from 40 on. -/
theorem bcdEnc_getLsbD_six {n : Int} (h0 : 0 ≤ n) (h : n ≤ 79) : (bcdEnc n).getLsbD 6 = decide (40 ≤ n) := by
  have hlt : n.toNat / 10 * 16 + n.toNat % 10 < 128 := by omega
  rw [getLsbD_six, bcdEnc_toNat_of_le h0 (by omega), Nat.mod_eq_of_lt hlt, decide_eq_decide]
  omega

/-! ### A byte whose value leaves its flags clear (R162) -/

section Field
variable {n : Int} (h0 : 0 ≤ n) (h : n ≤ 79) (c : Bool)
include h0 h

theorem flag_field : (bcdEnc n ||| dontCare c).getLsbD 7 = c := by
  rw [or_dontCare_getLsbD_seven, bcdEnc_getLsbD_seven_clear h0 h, Bool.false_or]

theorem valueBits_field : (bcdEnc n ||| dontCare c) &&& 0x7F#8 = bcdEnc n := by
  apply BitVec.eq_of_toNat_eq
  rw [or_dontCare_and_7F, toNat_and_7F, bcdEnc_toNat_of_le h0 (by omega)]
  omega

theorem fieldValue_field : (fieldValue (bcdEnc n ||| dontCare c) : Int) = n := by
  rw [fieldValue, valueBits_field h0 h, bcdDec_bcdEnc h0 (by omega)]

end Field

section Day
variable {n : Int} (h0 : 0 ≤ n) (h : n ≤ 39) (c dy : Bool)
include h0 h

theorem dontCareFlag_day : (bcdEnc n ||| (dontCare c ||| dayNotDate dy)).getLsbD 7 = c := by
  rw [or_dayFlags_getLsbD_seven, bcdEnc_getLsbD_seven_clear h0 (by omega), Bool.false_or]

theorem dayFlag_day : (bcdEnc n ||| (dontCare c ||| dayNotDate dy)).getLsbD 6 = dy := by
  have hclear : ¬ 40 ≤ n := by omega
  rw [or_dayFlags_getLsbD_six, bcdEnc_getLsbD_six h0 (by omega), decide_eq_false hclear, Bool.false_or]

theorem valueBits_day : (bcdEnc n ||| (dontCare c ||| dayNotDate dy)) &&& 0x3F#8 = bcdEnc n := by
  apply BitVec.eq_of_toNat_eq
  rw [or_dayFlags_and_3F, toNat_and_3F, bcdEnc_toNat_of_le h0 (by omega)]
  omega

theorem dayOrDateValue_day : (dayOrDateValue (bcdEnc n ||| (dontCare c ||| dayNotDate dy)) : Int) = n := by
  rw [dayOrDateValue, valueBits_day h0 h, bcdDec_bcdEnc h0 (by omega)]

end Day

/-! ### The blocks (R154, R155) -/

/-- Mode 0x00 has no flag. -/
theorem alarm1Bytes_without_flags (f : AlarmFields) :
    alarm1Bytes 0x00#8 f = [bcdEnc f.seconds, bcdEnc f.minutes, bcdEnc f.hours, bcdEnc f.dayOrDate] := by
  simp [alarm1Bytes, secFlags, minFlags, hrFlags, ddFlags, dontCare, dayNotDate]

/-- Mode 0x80 has no flag but the alarm-2 bit, which is in no byte. -/
theorem alarm2Bytes_without_flags (f : AlarmFields) :
    alarm2Bytes 0x80#8 f = [bcdEnc f.minutes, bcdEnc f.hours, bcdEnc f.dayOrDate] := by
  simp [alarm2Bytes, minFlags, hrFlags, ddFlags, dontCare, dayNotDate]

/-! ### The mode a block shows (R75, R160, R161) -/

theorem ushiftRight_seven (b : Byte) : b >>> 7 = BitVec.ofNat 8 (b.getLsbD 7).toNat := by
  apply BitVec.eq_of_toNat_eq
  have := b.isLt
  rw [BitVec.toNat_ushiftRight, Nat.shiftRight_eq_div_pow, BitVec.toNat_ofNat, BitVec.getLsbD, Nat.toNat_testBit]
  omega

theorem ushiftRight_six_and_one (b : Byte) : (b >>> 6) &&& 1#8 = BitVec.ofNat 8 (b.getLsbD 6).toNat := by
  apply BitVec.eq_of_toNat_eq
  have hone : (1#8).toNat = 1 := rfl
  rw [BitVec.toNat_and, BitVec.toNat_ushiftRight, Nat.shiftRight_eq_div_pow, hone, Nat.and_one_is_mod,
    BitVec.toNat_ofNat, BitVec.getLsbD, Nat.toNat_testBit]
  omega

/-- The flags at their places, ORed together. -/
theorem modeOfFlags_eq_or : ∀ s m h d dy a2 : Bool,
    modeOfFlags s m h d dy a2 =
      (if a2 then 0x80#8 else 0x00#8) ||| BitVec.ofNat 8 s.toNat ||| BitVec.ofNat 8 m.toNat <<< 1 |||
        BitVec.ofNat 8 h.toNat <<< 2 ||| BitVec.ofNat 8 d.toNat <<< 3 ||| BitVec.ofNat 8 dy.toNat <<< 4 := by
  decide

/-- The flags of a mode's code give the code back (R76). -/
theorem modeOfFlags_modeCode (m : MatchMode) :
    modeOfFlags ((modeCode m).getLsbD 0) ((modeCode m).getLsbD 1) ((modeCode m).getLsbD 2) ((modeCode m).getLsbD 3)
      ((modeCode m).getLsbD 4) ((modeCode m).getLsbD 7) = modeCode m := by
  cases m <;> rfl

/-- R160's shifts and ORs. -/
theorem alarm1Mode_eq_or (b0 b1 b2 b3 : Byte) :
    alarm1Mode [b0, b1, b2, b3] =
      b0 >>> 7 ||| (b1 >>> 7) <<< 1 ||| (b2 >>> 7) <<< 2 ||| (b3 >>> 7) <<< 3 ||| ((b3 >>> 6) &&& 1#8) <<< 4 := by
  simp only [ushiftRight_seven, ushiftRight_six_and_one]
  rw [alarm1Mode, modeOfFlags_eq_or, if_neg Bool.false_ne_true, BitVec.zero_or]
  rfl

/-- R161's shifts and ORs. -/
theorem alarm2Mode_eq_or (b0 b1 b2 : Byte) :
    alarm2Mode [b0, b1, b2] =
      0x80#8 ||| (b0 >>> 7) <<< 1 ||| (b1 >>> 7) <<< 2 ||| (b2 >>> 7) <<< 3 ||| ((b2 >>> 6) &&& 1#8) <<< 4 := by
  simp only [ushiftRight_seven, ushiftRight_six_and_one]
  rw [alarm2Mode, modeOfFlags_eq_or, if_pos rfl]
  rfl

/-! ### A block decoded (R162) -/

/-- The fields whose BCD bytes leave the flag bits clear. -/
structure AlarmFields.LeaveFlagsClear (f : AlarmFields) : Prop where
  seconds : 0 ≤ f.seconds ∧ f.seconds ≤ 79
  minutes : 0 ≤ f.minutes ∧ f.minutes ≤ 79
  hours : 0 ≤ f.hours ∧ f.hours ≤ 79
  dayOrDate : 0 ≤ f.dayOrDate ∧ f.dayOrDate ≤ 39

theorem alarm1Mode_alarm1Bytes {m : MatchMode} (hm : m.alarm = .one) {f : AlarmFields} (hf : f.LeaveFlagsClear) :
    alarm1Mode (alarm1Bytes (modeCode m) f) = modeCode m := by
  obtain ⟨⟨hs0, hs⟩, ⟨hmi0, hmi⟩, ⟨hh0, hh⟩, ⟨hd0, hd⟩⟩ := hf
  have hcode := modeOfFlags_modeCode m
  rw [modeCode_alarm_one_bit_seven hm] at hcode
  simp only [alarm1Mode, alarm1Bytes, byteAt_cons_succ, byteAt_cons_zero, secFlags, minFlags, hrFlags, ddFlags,
    flag_field hs0 hs, flag_field hmi0 hmi, flag_field hh0 hh, dontCareFlag_day hd0 hd, dayFlag_day hd0 hd, hcode]

theorem alarm2Mode_alarm2Bytes {m : MatchMode} (hm : m.alarm = .two) {f : AlarmFields} (hf : f.LeaveFlagsClear) :
    alarm2Mode (alarm2Bytes (modeCode m) f) = modeCode m := by
  obtain ⟨-, ⟨hmi0, hmi⟩, ⟨hh0, hh⟩, ⟨hd0, hd⟩⟩ := hf
  have hcode := modeOfFlags_modeCode m
  rw [modeCode_alarm_two_bit_zero hm, (modeCode_bit_seven m).mpr hm] at hcode
  simp only [alarm2Mode, alarm2Bytes, byteAt_cons_succ, byteAt_cons_zero, minFlags, hrFlags, ddFlags,
    flag_field hmi0 hmi, flag_field hh0 hh, dontCareFlag_day hd0 hd, dayFlag_day hd0 hd, hcode]

theorem alarm1OfBytes_alarm1Bytes {m : MatchMode} (hm : m.alarm = .one) {f : AlarmFields} (hf : f.LeaveFlagsClear) :
    alarm1OfBytes (alarm1Bytes (modeCode m) f) =
      { alarm := .one, mode := modeCode m, seconds := some f.seconds, minutes := f.minutes, hours := f.hours,
        dayOrDate := f.dayOrDate } := by
  have hmode := alarm1Mode_alarm1Bytes hm hf
  obtain ⟨⟨hs0, hs⟩, ⟨hmi0, hmi⟩, ⟨hh0, hh⟩, ⟨hd0, hd⟩⟩ := hf
  exact (AlarmSpec.mk.injEq ..).mpr ⟨rfl, hmode, congrArg some (fieldValue_field hs0 hs _), fieldValue_field hmi0 hmi _,
    fieldValue_field hh0 hh _, dayOrDateValue_day hd0 hd _ _⟩

theorem alarm2OfBytes_alarm2Bytes {m : MatchMode} (hm : m.alarm = .two) {f : AlarmFields} (hf : f.LeaveFlagsClear) :
    alarm2OfBytes (alarm2Bytes (modeCode m) f) =
      { alarm := .two, mode := modeCode m, seconds := none, minutes := f.minutes, hours := f.hours,
        dayOrDate := f.dayOrDate } := by
  have hmode := alarm2Mode_alarm2Bytes hm hf
  obtain ⟨-, ⟨hmi0, hmi⟩, ⟨hh0, hh⟩, ⟨hd0, hd⟩⟩ := hf
  exact (AlarmSpec.mk.injEq ..).mpr ⟨rfl, hmode, rfl, fieldValue_field hmi0 hmi _, fieldValue_field hh0 hh _,
    dayOrDateValue_day hd0 hd _ _⟩

theorem modeIsLegal_modeCode (m : MatchMode) : modeIsLegal (modeCode m) = true := (modeIsLegal_iff _).mpr ⟨m, rfl⟩

/-! ### The port checks (R154, R155, R216) -/

theorem alarmOperands_without_minutes {p : Ports} (h : p.minutes = none) : alarmOperands p = .error .minutes := by
  simp [alarmOperands, h]

theorem alarmOperands_without_hours {p : Ports} (hmi : p.minutes ≠ none) (h : p.hours = none) :
    alarmOperands p = .error .hours := by
  obtain ⟨mi, hmi⟩ := Option.ne_none_iff_exists'.mp hmi
  simp [alarmOperands, hmi, h]

theorem alarmOperands_without_dayOrDate {p : Ports} (hmi : p.minutes ≠ none) (hh : p.hours ≠ none)
    (h : p.dayOrDate = none) : alarmOperands p = .error .dayOrDate := by
  obtain ⟨mi, hmi⟩ := Option.ne_none_iff_exists'.mp hmi
  obtain ⟨hr, hh⟩ := Option.ne_none_iff_exists'.mp hh
  simp [alarmOperands, hmi, hh, h]

/-- A command that takes its fields by `withOperands` refuses the first of them that is missing. -/
theorem alarmPortsChecked_withOperands (s : State) (k : AlarmFields → State) :
    AlarmPortsChecked s (.next (withOperands (alarmOperands s.ports) s k)) := by
  have refused {p : PortName} (h : alarmOperands s.ports = .error p) :
      EndsInvalidArgument s p (.next (withOperands (alarmOperands s.ports) s k)) := by
    rw [h]
    exact congrArg Host.Outcome.next (withOperands_error p s k)
  exact ⟨fun h => refused (alarmOperands_without_minutes h), fun hmi h => refused (alarmOperands_without_hours hmi h),
    fun hmi hh h => refused (alarmOperands_without_dayOrDate hmi hh h)⟩

/-! ### The commands in terms of their operands (R154, R155, R156, R157, R160, R161) -/

section Exec
variable {m : MatchMode} (s : State)

theorem exec_alarm1Enc (hm : m.alarm = .one) : exec (.alarm1Enc m) s = .next (withOperands (alarmOperands s.ports) s
    fun f => s.ended (.ok (.block Config.a1Base (alarm1Bytes (modeCode m) f)))) :=
  congrArg Host.Outcome.next (withPairing_same _ s _ hm)

theorem exec_alarm2Enc (hm : m.alarm = .two) : exec (.alarm2Enc m) s = .next (withOperands (alarmOperands s.ports) s
    fun f => s.ended (.ok (.block Config.a2Base (alarm2Bytes (modeCode m) f)))) :=
  congrArg Host.Outcome.next (withPairing_same _ s _ hm)

theorem exec_alarm1Set (hm : m.alarm = .one) : exec (.alarm1Set m) s = .next (withOperands (alarmOperands s.ports) s
    fun f => endSet (writeBlock Config.a1Base (alarm1Bytes (modeCode m) f) s)) :=
  congrArg Host.Outcome.next (withPairing_same _ s _ hm)

theorem exec_alarm2Set (hm : m.alarm = .two) : exec (.alarm2Set m) s = .next (withOperands (alarmOperands s.ports) s
    fun f => endSet (writeBlock Config.a2Base (alarm2Bytes (modeCode m) f) s)) :=
  congrArg Host.Outcome.next (withPairing_same _ s _ hm)

end Exec

section Supplied
variable {s : State}

theorem exec_alarm1Enc_supplied {m : MatchMode} (hm : m.alarm = .one) {f : AlarmFields}
    (hf : alarmOperands s.ports = .ok f) :
    exec (.alarm1Enc m) s = .next (s.ended (.ok (.block Config.a1Base (alarm1Bytes (modeCode m) f)))) := by
  rw [exec_alarm1Enc s hm, hf, withOperands_ok]

theorem exec_alarm2Enc_supplied {m : MatchMode} (hm : m.alarm = .two) {f : AlarmFields}
    (hf : alarmOperands s.ports = .ok f) :
    exec (.alarm2Enc m) s = .next (s.ended (.ok (.block Config.a2Base (alarm2Bytes (modeCode m) f)))) := by
  rw [exec_alarm2Enc s hm, hf, withOperands_ok]

theorem exec_alarm1Dec_supplied {bytes : List Byte} (hbuf : s.ports.buf = some bytes) (hlen : bytes.length = 4) :
    exec .alarm1Dec s = .next (s.ended (.ok (.alarm (alarm1OfBytes bytes) (modeIsLegal (alarm1Mode bytes))))) := by
  simp only [exec, execAlarm1Dec, bufferOperand_supplied hbuf hlen, withOperands_ok, succeed_eq_ended]

theorem exec_alarm2Dec_supplied {bytes : List Byte} (hbuf : s.ports.buf = some bytes) (hlen : bytes.length = 3) :
    exec .alarm2Dec s = .next (s.ended (.ok (.alarm (alarm2OfBytes bytes) (modeIsLegal (alarm2Mode bytes))))) := by
  simp only [exec, execAlarm2Dec, bufferOperand_supplied hbuf hlen, withOperands_ok, succeed_eq_ended]

end Supplied

/-! ### The writes of a SET (R156, R157, R158) -/

/-- ALARM_COALESCE chooses between the two shapes of SET. -/
theorem writeBlock_spec (a : Byte) (bytes : List Byte) (s : State) (hl : bytes.length ≤ 256) :
    (s.coalesce = false → SetByRegisterWrites s a bytes (.next (endSet (writeBlock a bytes s)))) ∧
    (s.coalesce = true → SetByOneWrite s a bytes (.next (endSet (writeBlock a bytes s)))) := by
  refine ⟨fun hc => ?_, fun hc => ?_⟩
  · rw [writeBlock, hc, if_neg Bool.false_ne_true]
    exact writeEach_spec a bytes s hl
  · rw [writeBlock, hc, if_pos rfl]
    exact writeOnce_spec a bytes s hl

/-- A transaction that is reported as completed wrote all its bytes (R48). -/
theorem memWrite_image_of_ok {s t : State} {a : Byte} {bytes : List Byte} (h : memWrite a bytes s = (t, .ok)) :
    t.image = s.image.writeBytes a bytes := by
  cases hc : s.completes with
  | false =>
    rw [memWrite_fails a bytes hc] at h
    cases h
  | true =>
    rw [memWrite_completes a bytes hc] at h
    cases h
    rfl

theorem writeOnce_image_of_none {s t : State} {a : Byte} {bytes : List Byte} (h : writeOnce a bytes s = (t, none)) :
    t.image = s.image.writeBytes a bytes := by
  rcases hm : memWrite a bytes s with ⟨u, status⟩
  simp only [writeOnce, hm] at h
  cases status with
  | ok =>
    cases h
    exact memWrite_image_of_ok hm
  | failure => cases h

/-- By induction on the bytes: each completed write is the first byte of those that `writeBytes` writes. -/
theorem writeEach_image_of_none {s t : State} {i : Nat} {a : Byte} {bytes : List Byte}
    (h : writeEach i a bytes s = (t, none)) : t.image = s.image.writeBytes a bytes := by
  induction bytes generalizing s i a with
  | nil =>
    cases h
    rfl
  | cons b bs ih =>
    rcases hm : memWrite a [b] s with ⟨u, status⟩
    simp only [writeEach, hm] at h
    cases status with
    | ok => exact (ih h).trans (congrArg (Memory.writeBytes · (a + 1#8) bs) (memWrite_image_of_ok hm))
    | failure => cases h

/-- Writes that end without an exception leave one image, whether or not they were one transaction. -/
theorem writeBlock_image_of_none {s t : State} {a : Byte} {bytes : List Byte} (h : writeBlock a bytes s = (t, none)) :
    t.image = s.image.writeBytes a bytes := by
  rw [writeBlock] at h
  split at h
  · exact writeOnce_image_of_none h
  · exact writeEach_image_of_none h

/-! ### A SET that ends in `unit` (R158) -/

/-- The last command ended in `unit`. -/
def State.EndedInUnit (s : State) : Prop := s.outcomes.getLast? = some (.ok .unit)

theorem endedInUnit_of_outcomes {t : State} {os : List CommandOutcome} (h : t.outcomes = os ++ [.ok .unit]) :
    t.EndedInUnit := by
  rw [State.EndedInUnit, h, List.getLast?_concat]

theorem not_endedInUnit_raise (e : Exc) (s : State) : ¬ (raise e s).EndedInUnit := by
  simp [State.EndedInUnit, raise]

/-- A SET that ends in `unit` was of its own alarm, had its operands, and wrote its block. -/
theorem set_image_of_unit {alarm : AlarmNumber} {m : MatchMode} {i : Instr} {operands : Except PortName AlarmFields}
    {a : Byte} {bytes : AlarmFields → List Byte} {s t : State}
    (ht : withPairing alarm m i s (withOperands operands s fun f => endSet (writeBlock a (bytes f) s)) = t)
    (hunit : t.EndedInUnit) : ∃ f, operands = .ok f ∧ t.image = s.image.writeBytes a (bytes f) := by
  rw [withPairing] at ht
  split at ht
  case isFalse => exact absurd (ht ▸ hunit) (not_endedInUnit_raise _ _)
  case isTrue =>
    cases operands with
    | error p => exact absurd (ht ▸ hunit) (not_endedInUnit_raise _ _)
    | ok f =>
      rcases hw : writeBlock a (bytes f) s with ⟨u, e⟩
      rw [withOperands_ok, hw] at ht
      cases e with
      | some e => exact absurd (ht ▸ hunit) (not_endedInUnit_raise _ _)
      | none =>
        subst ht
        exact ⟨f, rfl, (ended_image u _).trans (writeBlock_image_of_none hw)⟩

/-- The two SETs alike: which block is written is a function of the ports, so ALARM_COALESCE has no part in it. -/
theorem exec_alarmSet_image {m : MatchMode} {i : Instr} (hi : i = .alarm1Set m ∨ i = .alarm2Set m) :
    ∃ (a : Byte) (bytes : AlarmFields → List Byte), ∀ s t, exec i s = .next t → t.EndedInUnit →
      ∃ f, alarmOperands s.ports = .ok f ∧ t.image = s.image.writeBytes a (bytes f) := by
  rcases hi with rfl | rfl
  · exact ⟨_, _, fun _ _ h => set_image_of_unit (Host.Outcome.next.inj h)⟩
  · exact ⟨_, _, fun _ _ h => set_image_of_unit (Host.Outcome.next.inj h)⟩

/-- A command that returns a result adds nothing to the fault log (R211). -/
theorem Effect.faults_of_ok {s t : State} (h : Effect s t) {v : Result} (ho : t.outcomes = s.outcomes ++ [.ok v]) :
    t.faults = s.faults := by
  obtain ⟨o, -, houtcomes, hfaults⟩ := h.outcome
  obtain rfl : o = .ok v := List.singleton_inj.mp (List.append_cancel_left (houtcomes.symm.trans ho))
  rw [hfaults, faultsOf, faultsOf, List.append_nil]

/-! ### The statements -/

/-- Settles O27: the command records a function of its ports; each byte is its field with the mode's flags ORed in. -/
theorem alarm1EncBuildsTheBlock : Obligations.Alarm1EncBuildsTheBlock := by
  refine ⟨fun _ _ => rfl, ?notOwn, ?supplied, fun _ _ => rfl, ?missing, fun f => ⟨alarm1Bytes_without_flags f, ?_, ?_⟩,
    by decide⟩
  case notOwn =>
    exact fun mode h => (decode_alarmEnc_word false mode).trans (decodeAlarmMode_of_not_own (alarm := .one) h)
  case supplied =>
    exact fun _ _ _ _ _ hm hmi hh hd => exec_alarm1Enc_supplied hm (alarmOperands_supplied hmi hh hd)
  case missing => exact fun s _ hm => exec_alarm1Enc s hm ▸ alarmPortsChecked_withOperands s _
  · rfl
  · simp [alarm1Bytes, secFlags, minFlags, hrFlags, ddFlags, dontCare, dayNotDate, modeCode]

/-- Settles O28: as O27, with no byte for the seconds. -/
theorem alarm2EncBuildsTheBlock : Obligations.Alarm2EncBuildsTheBlock := by
  refine ⟨fun _ _ => rfl, ?notOwn, ?supplied, fun _ _ => rfl, ?missing, fun f => ⟨?_, alarm2Bytes_without_flags f⟩,
    by decide⟩
  case notOwn =>
    exact fun mode h => (decode_alarmEnc_word true mode).trans (decodeAlarmMode_of_not_own (alarm := .two) h)
  case supplied =>
    intro s m sec mi h d hm hmi hh hd
    rw [exec_alarm2Enc_supplied hm (alarmOperands_supplied hmi hh hd)]
    rfl
  case missing => exact fun s _ hm => exec_alarm2Enc s hm ▸ alarmPortsChecked_withOperands s _
  · rfl

/-- Settles O29: the supplied fields are the writes of their block, and the checks come before them. -/
theorem alarm1SetWritesItsRegisters : Obligations.Alarm1SetWritesItsRegisters := by
  refine ⟨fun _ _ => rfl, ?notOwn, ?supplied, ?missing, by decide⟩
  case notOwn =>
    exact fun mode h => (decode_alarmSet_word false mode).trans (decodeAlarmMode_of_not_own (alarm := .one) h)
  case supplied =>
    intro s m mi h d hm hmi hh hd
    rw [exec_alarm1Set s hm, alarmOperands_supplied hmi hh hd, withOperands_ok]
    obtain ⟨heach, honce⟩ := writeBlock_spec Config.a1Base (alarm1Bytes (modeCode m) ⟨s.ports.seconds.getD 0, mi, h, d⟩) s
      (by simp)
    exact ⟨heach, honce, alarm1Bytes_length _ _⟩
  case missing => exact fun s _ hm => exec_alarm1Set s hm ▸ alarmPortsChecked_withOperands s _

/-- Settles O30: as O29, with no write for the seconds. -/
theorem alarm2SetWritesItsRegisters : Obligations.Alarm2SetWritesItsRegisters := by
  refine ⟨fun _ _ => rfl, ?notOwn, ?supplied, ?missing, by decide⟩
  case notOwn =>
    exact fun mode h => (decode_alarmSet_word true mode).trans (decodeAlarmMode_of_not_own (alarm := .two) h)
  case supplied =>
    intro s m sec mi h d hm hmi hh hd
    rw [exec_alarm2Set s hm, alarmOperands_supplied hmi hh hd, withOperands_ok]
    obtain ⟨heach, honce⟩ := writeBlock_spec Config.a2Base (alarm2Bytes (modeCode m) ⟨sec, mi, h, d⟩) s (by simp)
    exact ⟨heach, honce, alarm2Bytes_length _ _⟩
  case missing => exact fun s _ hm => exec_alarm2Set s hm ▸ alarmPortsChecked_withOperands s _

/-- Settles O31: the command records a function of its buffer; the mode is that of the flags, shifted to their places. -/
theorem alarm1DecReadsTheBlock : Obligations.Alarm1DecReadsTheBlock :=
  ⟨rfl, fun _ _ _ _ _ hbuf => exec_alarm1Dec_supplied hbuf rfl, fun s => bufferChecked_withOperands 4 s _,
    fun b0 b1 b2 b3 => ⟨rfl, alarm1Mode_eq_or b0 b1 b2 b3⟩, by decide, by decide, by decide, by decide, by decide⟩

/-- Settles O32: as O31, with the alarm-2 bit in the mode and no seconds. -/
theorem alarm2DecReadsTheBlock : Obligations.Alarm2DecReadsTheBlock :=
  ⟨rfl, fun _ _ _ _ hbuf => exec_alarm2Dec_supplied hbuf rfl, fun s => bufferChecked_withOperands 3 s _,
    fun b0 b1 b2 => ⟨rfl, alarm2Mode_eq_or b0 b1 b2⟩, by decide, by decide, by decide, by decide⟩

/-- Settles O33: the fields leave the flag bits to the mode, and the value masks remove the flags again. -/
theorem alarm1FlagsAreExactlyTheModes : Obligations.Alarm1FlagsAreExactlyTheModes := by
  intro s m mi h d hm hmi hh hd hs0 hs hmi0 hmi79 hh0 hh79 hd0 hd39
  have hf : AlarmFields.LeaveFlagsClear ⟨s.ports.seconds.getD 0, mi, h, d⟩ :=
    ⟨⟨hs0, hs⟩, ⟨hmi0, hmi79⟩, ⟨hh0, hh79⟩, ⟨hd0, hd39⟩⟩
  refine ⟨_, _, _, _, exec_alarm1Enc_supplied hm (alarmOperands_supplied hmi hh hd), flag_field hs0 hs _,
    flag_field hmi0 hmi79 _, flag_field hh0 hh79 _, dontCareFlag_day hd0 hd39 _ _, dayFlag_day hd0 hd39 _ _,
    valueBits_field hs0 hs _, valueBits_field hmi0 hmi79 _, valueBits_field hh0 hh79 _, valueBits_day hd0 hd39 _ _,
    fun t hbuf => ?_⟩
  rw [exec_alarm1Dec_supplied (bytes := alarm1Bytes (modeCode m) _) hbuf rfl, alarm1OfBytes_alarm1Bytes hm hf,
    alarm1Mode_alarm1Bytes hm hf, modeIsLegal_modeCode]

/-- Settles O34: as O33; the seconds, which are in no byte, are taken as 0. -/
theorem alarm2FlagsAreExactlyTheModes : Obligations.Alarm2FlagsAreExactlyTheModes := by
  intro s m mi h d hm hmi hh hd hmi0 hmi79 hh0 hh79 hd0 hd39
  have hf : AlarmFields.LeaveFlagsClear ⟨0, mi, h, d⟩ :=
    ⟨⟨by simp, by simp⟩, ⟨hmi0, hmi79⟩, ⟨hh0, hh79⟩, ⟨hd0, hd39⟩⟩
  refine ⟨_, _, _, exec_alarm2Enc_supplied hm (alarmOperands_supplied hmi hh hd), flag_field hmi0 hmi79 _,
    flag_field hh0 hh79 _, dontCareFlag_day hd0 hd39 _ _, dayFlag_day hd0 hd39 _ _, valueBits_field hmi0 hmi79 _,
    valueBits_field hh0 hh79 _, valueBits_day hd0 hd39 _ _, fun t hbuf => ?_⟩
  rw [exec_alarm2Dec_supplied (bytes := alarm2Bytes (modeCode m) ⟨0, mi, h, d⟩) hbuf rfl,
    alarm2OfBytes_alarm2Bytes hm hf, alarm2Mode_alarm2Bytes hm hf, modeIsLegal_modeCode]

/-- Settles O35: a flag bit that the field's own BCD byte sets stays set, whatever the mode ORs in. -/
theorem alarmFieldsAreNotCorrected : Obligations.AlarmFieldsAreNotCorrected := by
  intro mode f
  have seven {n : Int} (h80 : 80 ≤ n) (h : n ≤ 99) : (bcdEnc n).getLsbD 7 = true := by
    rw [bcdEnc_getLsbD_seven (by omega) (by omega), decide_eq_true h80]
  have field {n : Int} (c : Bool) (h80 : 80 ≤ n) (h : n ≤ 99) : (bcdEnc n ||| dontCare c).getLsbD 7 = true := by
    rw [or_dontCare_getLsbD_seven, seven h80 h, Bool.true_or]
  have daySix (h40 : 40 ≤ f.dayOrDate) (h : f.dayOrDate ≤ 79) :
      (bcdEnc f.dayOrDate ||| ddFlags mode).getLsbD 6 = true := by
    rw [ddFlags, or_dayFlags_getLsbD_six, bcdEnc_getLsbD_six (by omega) h, decide_eq_true h40, Bool.true_or]
  have daySeven (h80 : 80 ≤ f.dayOrDate) (h : f.dayOrDate ≤ 99) :
      (bcdEnc f.dayOrDate ||| ddFlags mode).getLsbD 7 = true := by
    rw [ddFlags, or_dayFlags_getLsbD_seven, seven h80 h, Bool.true_or]
  exact ⟨field _, fun h80 h => ⟨field _ h80 h, field _ h80 h⟩, fun h80 h => ⟨field _ h80 h, field _ h80 h⟩,
    fun h40 h => ⟨daySix h40 h, daySix h40 h⟩, fun h80 h => ⟨daySeven h80 h, daySeven h80 h⟩,
    alarm1Bytes_without_flags f, alarm2Bytes_without_flags f, by decide, by decide⟩

/-- Settles O36: both SETs leave the image with the block written; everything else is what any command that ends in `unit`
leaves. -/
theorem coalescingLeavesTheSameImage : Obligations.CoalescingLeavesTheSameImage := by
  intro m s t u i hi ht hu hto huo
  obtain ⟨a, bytes, himage⟩ := exec_alarmSet_image hi
  obtain ⟨f, hf, htimage⟩ := himage _ t ht (endedInUnit_of_outcomes hto)
  obtain ⟨f', hf', huimage⟩ := himage _ u hu (endedInUnit_of_outcomes huo)
  obtain rfl : f = f' := Except.ok.inj (hf.symm.trans hf')
  obtain ⟨t', ht', heff⟩ := exec_effect i { s with coalesce := false }
  obtain ⟨u', hu', heff'⟩ := exec_effect i { s with coalesce := true }
  obtain rfl : t' = t := Host.Outcome.next.inj (ht'.symm.trans ht)
  obtain rfl : u' = u := Host.Outcome.next.inj (hu'.symm.trans hu)
  exact ⟨htimage.trans huimage.symm, hto.trans huo.symm, (heff.faults_of_ok hto).trans (heff'.faults_of_ok huo).symm,
    heff.cmdIndex.trans heff'.cmdIndex.symm, heff.pending.trans heff'.pending.symm⟩

end Sys2Proof.Machine
end

section
/-! PROOFS of the family 43_temperature.md: the reading as a signed whole part and a fraction and as one 10-bit number, and the
two temperature commands. -/

namespace Sys2Proof.Machine

/-! ### The reading as a signed whole part and a fraction (R8, R9, R190) -/

/-- `sext_8` is the two's-complement value of the byte. -/
theorem sext8_eq_toInt (b : Byte) : sext8 b = b.toInt := by
  rw [BitVec.toInt_eq_toNat_cond, sext8]
  have hhalf : b.toNat < 128 ↔ 2 * b.toNat < 2 ^ 8 := by omega
  exact if_congr hhalf rfl rfl

/-- A literal number of quarters in degrees. -/
theorem celsius_of_quarters {t : Temperature} {q : Int} {c : Rat} (hq : t.quarters = q) (hc : (q : Rat) / 4 = c) :
    t.celsius = c := by
  rw [Temperature.celsius, hq, hc]

section Pair
variable (b0 b1 : Byte)

theorem quarters_pair : (temperatureOfBytes [b0, b1]).quarters = 4 * sext8 b0 + (b1.toNat / 64 : Nat) := rfl

theorem temperatureOfBytes_pair :
    temperatureOfBytes [b0, b1] = { quarters := 4 * b0.toInt + (b1.toNat / 64 : Nat) } := by
  rw [← sext8_eq_toInt, ← quarters_pair]

/-- In degrees the whole part keeps its sign and the fraction is always added (R191). -/
theorem celsius_temperatureOfBytes :
    (temperatureOfBytes [b0, b1]).celsius = (b0.toInt : Rat) + ((b1.toNat / 64 : Nat) : Rat) / 4 := by
  rw [temperatureOfBytes_pair, Temperature.celsius, Int.cast_add, Int.cast_mul, Int.cast_natCast, Int.cast_ofNat,
    add_div, mul_div_cancel_left₀ _ four_ne_zero]

/-! ### The reading as one 10-bit number (R193) -/

theorem quarters_of_lt_512 (h : b0.toNat * 4 + b1.toNat / 64 < 512) :
    (temperatureOfBytes [b0, b1]).quarters = ((b0.toNat * 4 + b1.toNat / 64 : Nat) : Int) := by
  have hsign : b0.toNat < 128 := by omega
  rw [quarters_pair, sext8, if_pos hsign]
  omega

theorem quarters_of_512_le (h : 512 ≤ b0.toNat * 4 + b1.toNat / 64) :
    (temperatureOfBytes [b0, b1]).quarters = ((b0.toNat * 4 + b1.toNat / 64 : Nat) : Int) - 1024 := by
  have hsign : ¬ b0.toNat < 128 := by omega
  rw [quarters_pair, sext8, if_neg hsign]
  omega

/-- The sign is lost modulo 1024, and what is left is the 10-bit number itself. -/
theorem quarters_emod :
    (temperatureOfBytes [b0, b1]).quarters % 1024 = ((b0.toNat * 4 + b1.toNat / 64 : Nat) : Int) := by
  have hwhole := b0.isLt
  have hfraction := b1.isLt
  rcases lt_or_ge (b0.toNat * 4 + b1.toNat / 64) 512 with h | h
  · rw [quarters_of_lt_512 b0 b1 h]
    omega
  · rw [quarters_of_512_le b0 b1 h]
    omega

end Pair

/-- Equal readings have equal 10-bit numbers, and the number is the pair's two digits. -/
theorem temperatureOfBytes_injective {b0 b1 c0 c1 : Byte} (h : temperatureOfBytes [b0, b1] = temperatureOfBytes [c0, c1]) :
    b0 = c0 ∧ b1.toNat / 64 = c1.toNat / 64 := by
  have hb := quarters_emod b0 b1
  rw [h, quarters_emod c0 c1] at hb
  have hb1 := b1.isLt
  have hc1 := c1.isLt
  exact ⟨BitVec.eq_of_toNat_eq (by omega), by omega⟩

/-- The register pair that shows a number of quarter degrees: its 10 low bits, the unused bits clear. -/
def temperatureBytes (q : Int) : Byte × Byte :=
  (BitVec.ofInt 8 (q / 4), BitVec.ofInt 8 (q % 4 * 64))

/-- A reading of R190's range is that of its own register pair. -/
theorem temperatureOfBytes_temperatureBytes {q : Int} (h0 : -512 ≤ q) (h : q ≤ 511) :
    temperatureOfBytes [(temperatureBytes q).1, (temperatureBytes q).2] = { quarters := q } := by
  have hwhole : (temperatureBytes q).1.toInt = q / 4 := BitVec.toInt_ofInt_eq_self (by decide) (by omega) (by omega)
  have hfraction : ((temperatureBytes q).2.toNat / 64 : Nat) = q % 4 := by
    rw [temperatureBytes, BitVec.toNat_ofInt]
    omega
  rw [temperatureOfBytes_pair, hwhole, hfraction, Int.mul_ediv_add_emod]

/-! ### The two commands (R191, R192) -/

theorem exec_tempDec (s : State) : exec .tempDec s = .next (s.ended
    (pureOutcome (fun bytes => .temperature (temperatureOfBytes bytes)) (bufferOperand Config.tempLen s.ports))) :=
  congrArg Host.Outcome.next (withOperands_succeed _ s _)

theorem exec_tempDec_supplied {s : State} {bytes : List Byte} (hbuf : s.ports.buf = some bytes) (hlen : bytes.length = 2) :
    exec .tempDec s = .next (s.ended (.ok (.temperature (temperatureOfBytes bytes)))) := by
  rw [exec_tempDec, bufferOperand_supplied hbuf hlen, pureOutcome]

theorem exec_tempGet (s : State) :
    GetByOneRead s Config.tempBase Config.tempLen (fun bytes => .temperature (temperatureOfBytes bytes)) (exec .tempGet s) :=
  readThen_spec Config.tempBase Config.tempLen _ s

/-- TEMP.GET under the simulator oracle answers the reading of the register pair that the image holds. -/
theorem exec_tempGet_of_pair {s : State} {b0 b1 : Byte} (ht : s.transport = .simulator) (hc : s.completes = true)
    (h0 : s.image.read 0x11#8 = some b0) (h1 : s.image.read 0x12#8 = some b1) :
    ∃ u, exec .tempGet s = .next u ∧ u.outcomes = s.outcomes ++ [.ok (.temperature (temperatureOfBytes [b0, b1]))] := by
  have hdrawn : s.drawn Config.tempBase Config.tempLen = [b0, b1] := by
    refine drawn_of_simulator (bytes := [b0, b1]) ht fun i hi => ?_
    match i, hi with
    | 0, _ => exact h0
    | 1, _ => exact h1
  obtain ⟨-, hexec⟩ := (exec_tempGet s).1 hc
  rw [hdrawn] at hexec
  exact ⟨_, hexec, rfl⟩

/-! ### The statements -/

/-- Settles O37: the command records a function of its buffer, and the corner cases are that function at literal pairs. -/
theorem tempDecReadsQuarters : Obligations.TempDecReadsQuarters := by
  refine ⟨rfl, ?supplied, fun s => bufferChecked_withOperands 2 s _, ?reading, ?cornerCases⟩
  case supplied =>
    intro s b0 b1 hbuf
    rw [exec_tempDec_supplied hbuf rfl, temperatureOfBytes_pair]
  case reading =>
    exact fun b0 b1 => ⟨temperatureOfBytes_pair b0 b1, celsius_temperatureOfBytes b0 b1, temperatureOfBytes_inRange _⟩
  case cornerCases =>
    exact ⟨celsius_of_quarters (q := -3) rfl (by norm_num), celsius_of_quarters (q := -512) rfl (by norm_num),
      celsius_of_quarters (q := 511) rfl (by norm_num), celsius_of_quarters (q := 101) rfl (by norm_num),
      celsius_of_quarters (q := 101) rfl (by norm_num)⟩

/-- Settles O38: the command is one read and its decoding; in the example the draw is the register pair of the image. -/
theorem tempGetDecodesOneRead : Obligations.TempGetDecodesOneRead := by
  refine ⟨rfl, exec_tempGet, fun _ _ _ => rfl, fun s ht hc h0 h1 => ?_⟩
  obtain ⟨u, hexec, houtcomes⟩ := exec_tempGet_of_pair ht hc h0 h1
  exact ⟨u, _, hexec, houtcomes, celsius_of_quarters (q := -98) rfl (by norm_num)⟩

/-- Settles O39: the sign is that of the 10-bit number, which the reading gives back modulo 1024; the exact value is the
quarters over 4, and they lie in -512..511. -/
theorem temperatureIsTenBitTwosComplement : Obligations.TemperatureIsTenBitTwosComplement := by
  refine ⟨fun b0 b1 => ⟨quarters_of_lt_512 b0 b1, quarters_of_512_le b0 b1⟩, fun _ _ _ _ => temperatureOfBytes_injective,
    fun q h0 h => ⟨_, _, temperatureOfBytes_temperatureBytes h0 h⟩, ?exact⟩
  case exact =>
    intro b0 b1
    obtain ⟨h0, h⟩ := temperatureOfBytes_inRange [b0, b1]
    exact ⟨(temperatureOfBytes [b0, b1]).quarters, celsius_of_quarters rfl (by norm_num), by omega⟩

end Sys2Proof.Machine
end

section
/-! PROOFS of the family 60_exceptions.md: the words the decoder rejects, what a rejected word leaves behind, the fault log,
and a missing port before any transaction. -/

namespace Sys2Proof

/-! ### The fields of a word as numbers (R71) -/

theorem almField_toNat (w : Word) : (almField w).toNat = w.toNat / 256 % 2 := by
  rw [almField_eq]
  rcases Nat.mod_two_eq_zero_or_one (w.toNat / 256) with h | h <;> simp [h]

theorem almField_eq_true (w : Word) : almField w = true ↔ w.toNat / 256 % 2 ≠ 0 := by
  rw [← almField_toNat]
  cases almField w <;> decide

theorem modeField_eq_zero (w : Word) : modeField w = 0 ↔ w.toNat % 256 = 0 := by
  rw [← BitVec.toNat_inj, modeField_toNat]
  rfl

/-- MODE[7] equals ALM (R77). -/
theorem modeField_bit_seven_eq_alm_iff (w : Word) :
    (modeField w).getLsbD 7 = almField w ↔ w.toNat / 128 % 2 = w.toNat / 256 % 2 := by
  rw [modeField_bit_seven, almField_eq, decide_eq_decide]
  omega

theorem mem_allModes (m : MatchMode) : m ∈ allModes := by
  cases m <;> decide

/-- The legal codes are the eleven of R76. -/
theorem modeIsLegal_iff_toNat (c : Byte) :
    modeIsLegal c = true ↔ c.toNat ∈ allModes.map fun m => (modeCode m).toNat := by
  simp only [modeIsLegal_iff, List.mem_map, mem_allModes, true_and, BitVec.toNat_inj]

/-! ### What each family of the decoder rejects (R73) -/

/-- ALARM.DEC is rejected where MODE is not ALM << 7. -/
theorem decodeAlarmDec_eq_illegalCommand {alm : Bool} {mode : Byte} :
    decodeAlarmDec alm mode = .illegalCommand ↔ mode.toNat ≠ alm.toNat * 128 := by
  cases alm <;> simp [decodeAlarmDec, ← BitVec.toNat_inj]

theorem decodeAlarmDec_ne_contractViolation (alm : Bool) (mode : Byte) :
    decodeAlarmDec alm mode ≠ .contractViolation := by
  unfold decodeAlarmDec
  split_ifs <;> exact Verdict.noConfusion

theorem decodeAlarmMode_ne_illegalCommand (one two : MatchMode → Instr) (alm : Bool) (mode : Byte) :
    decodeAlarmMode one two alm mode ≠ .illegalCommand := by
  unfold decodeAlarmMode
  split
  · exact Verdict.noConfusion
  · split_ifs <;> exact Verdict.noConfusion

/-- A mode byte is refused where it is no code of the table or its bit 7 disagrees with ALM (R77). -/
theorem decodeAlarmMode_eq_contractViolation {one two : MatchMode → Instr} {alm : Bool} {mode : Byte} :
    decodeAlarmMode one two alm mode = .contractViolation ↔ ¬ modeIsLegal mode = true ∨ mode.getLsbD 7 ≠ alm := by
  unfold decodeAlarmMode modeIsLegal
  split
  next hnone => simp [hnone]
  next m hsome => simp [hsome]

/-- Outside the alarm family every OP that is not reserved names an operation (R72). -/
theorem decodePlain_eq_operation {op : Nat} (hop : ¬ (op = 0x0 ∨ 0xC ≤ op)) (halarm : op ∉ [0x7, 0x8, 0x9]) :
    ∃ i, decodePlain op = .operation i := by
  have hlt : op < 0xC := by omega
  revert halarm hop
  interval_cases op <;> simp [decodePlain]

/-- The branch of R73 that a word takes: rejected for OP or RSV, handed to the decoder of its family, or rejected for
operands outside the alarm family. -/
theorem decode_cases (w : Word) :
    ((opField w = 0x0 ∨ 0xC ≤ opField w) ∨ rsvField w ≠ 0) ∧ decode w = .illegalCommand ∨
    ¬ (opField w = 0x0 ∨ 0xC ≤ opField w) ∧ rsvField w = 0 ∧
      (opField w = 0x8 ∧ decode w = decodeAlarmDec (almField w) (modeField w) ∨
       opField w = 0x7 ∧ decode w = decodeAlarmMode .alarm1Enc .alarm2Enc (almField w) (modeField w) ∨
       opField w = 0x9 ∧ decode w = decodeAlarmMode .alarm1Set .alarm2Set (almField w) (modeField w) ∨
       opField w ∉ [0x7, 0x8, 0x9] ∧ (almField w = true ∨ modeField w ≠ 0) ∧ decode w = .illegalCommand ∨
       opField w ∉ [0x7, 0x8, 0x9] ∧ ¬ (almField w = true ∨ modeField w ≠ 0) ∧ decode w = decodePlain (opField w)) := by
  unfold decode
  by_cases hop : opField w = 0x0 ∨ 0xC ≤ opField w
  · exact .inl ⟨.inl hop, if_pos hop⟩
  rw [if_neg hop]
  by_cases hrsv : rsvField w ≠ 0
  · exact .inl ⟨.inr hrsv, if_pos hrsv⟩
  rw [if_neg hrsv]
  refine .inr ⟨hop, not_not.mp hrsv, ?_⟩
  by_cases h8 : opField w = 0x8
  · exact .inl ⟨h8, if_pos h8⟩
  rw [if_neg h8]
  by_cases h7 : opField w = 0x7
  · exact .inr (.inl ⟨h7, if_pos h7⟩)
  rw [if_neg h7]
  by_cases h9 : opField w = 0x9
  · exact .inr (.inr (.inl ⟨h9, if_pos h9⟩))
  rw [if_neg h9]
  have halarm : opField w ∉ [0x7, 0x8, 0x9] := by simp [h7, h8, h9]
  by_cases hoperands : almField w = true ∨ modeField w ≠ 0
  · exact .inr (.inr (.inr (.inl ⟨halarm, hoperands, if_pos hoperands⟩)))
  · exact .inr (.inr (.inr (.inr ⟨halarm, hoperands, if_neg hoperands⟩)))

/-! ### The rejected words (R213, R215) -/

theorem decode_eq_illegalCommand_iff (w : Word) :
    decode w = .illegalCommand ↔
      (opField w = 0x0 ∨ 0xC ≤ opField w) ∨ rsvField w ≠ 0 ∨
      (opField w ∉ [0x7, 0x8, 0x9] ∧ (almField w = true ∨ modeField w ≠ 0)) ∨
      (opField w = 0x8 ∧ (modeField w).toNat ≠ (almField w).toNat * 128) := by
  rcases decode_cases w with ⟨hbad, hdec⟩ | ⟨hop, hrsv, ⟨h8, hdec⟩ | ⟨h7, hdec⟩ | ⟨h9, hdec⟩ |
    ⟨halarm, hoperands, hdec⟩ | ⟨halarm, hoperands, hdec⟩⟩
  · exact iff_of_true hdec (hbad.imp_right .inl)
  · rw [hdec, decodeAlarmDec_eq_illegalCommand]
    simp [h8, hrsv]
  · rw [hdec]
    exact iff_of_false (decodeAlarmMode_ne_illegalCommand _ _ _ _) (by simp [h7, hrsv])
  · rw [hdec]
    exact iff_of_false (decodeAlarmMode_ne_illegalCommand _ _ _ _) (by simp [h9, hrsv])
  · exact iff_of_true hdec (.inr (.inr (.inl ⟨halarm, hoperands⟩)))
  · obtain ⟨i, hi⟩ := decodePlain_eq_operation hop halarm
    rw [hdec, hi]
    refine iff_of_false Verdict.noConfusion ?_
    rintro (hreserved | hne | ⟨-, hused⟩ | ⟨h8, -⟩)
    · exact hop hreserved
    · exact hne hrsv
    · exact hoperands hused
    · exact halarm (by simp [h8])

theorem decode_eq_contractViolation_iff (w : Word) :
    decode w = .contractViolation ↔
      (opField w = 0x7 ∨ opField w = 0x9) ∧ rsvField w = 0 ∧
      (¬ modeIsLegal (modeField w) = true ∨ (modeField w).getLsbD 7 ≠ almField w) := by
  rcases decode_cases w with ⟨hbad, hdec⟩ | ⟨hop, hrsv, ⟨h8, hdec⟩ | ⟨h7, hdec⟩ | ⟨h9, hdec⟩ |
    ⟨halarm, hoperands, hdec⟩ | ⟨halarm, hoperands, hdec⟩⟩
  · rw [hdec]
    refine iff_of_false Verdict.noConfusion fun ⟨hop, hrsv, _⟩ => ?_
    rcases hbad with hreserved | hne
    · omega
    · exact hne hrsv
  · rw [hdec]
    exact iff_of_false (decodeAlarmDec_ne_contractViolation _ _) (by simp [h8])
  · rw [hdec, decodeAlarmMode_eq_contractViolation]
    simp [h7, hrsv]
  · rw [hdec, decodeAlarmMode_eq_contractViolation]
    simp [h9, hrsv]
  · rw [hdec]
    exact iff_of_false Verdict.noConfusion fun ⟨hop, _⟩ => halarm (by rcases hop with h | h <;> simp [h])
  · obtain ⟨i, hi⟩ := decodePlain_eq_operation hop halarm
    rw [hdec, hi]
    exact iff_of_false Verdict.noConfusion fun ⟨hop, _⟩ => halarm (by rcases hop with h | h <;> simp [h])

/-- Settles O3: R73's rejections by fields, each field written as the number of its bits. -/
theorem illegalWordsAreThoseListed : Obligations.IllegalWordsAreThoseListed := by
  intro w
  rw [decode_eq_illegalCommand_iff, opField_eq, ne_eq, rsvField_eq_zero, almField_eq_true, ne_eq (modeField w) 0,
    modeField_eq_zero, modeField_toNat, almField_toNat]

/-- Settles O4: R77's refusals by fields, each field written as the number of its bits. -/
theorem contractWordsAreThoseListed : Obligations.ContractWordsAreThoseListed := by
  intro w
  rw [decode_eq_contractViolation_iff, opField_eq, rsvField_eq_zero, modeIsLegal_iff_toNat, modeField_toNat, ne_eq,
    modeField_bit_seven_eq_alm_iff]
  rfl

end Sys2Proof

namespace Sys2Proof.Machine

/-! ### What a rejected word leaves behind (R210, R211, R217) -/

/-- Settles O9: the decoder's verdict selects the branch of `step` that raises the fault, where no port is read. -/
theorem illegalWordIsRecordedAndPassed : Obligations.IllegalWordIsRecordedAndPassed :=
  fun _ _ _ => step_of_illegalCommand

/-- Settles O10: the decoder's verdict selects the branch of `step` that raises the fault, where no port is read. -/
theorem contractViolationIsRecordedAndPassed : Obligations.ContractViolationIsRecordedAndPassed :=
  fun _ _ _ => step_of_contractViolation

/-- Settles O11: the rows of R210 and the classes of R211. -/
theorem exceptionCodesAndClasses : Obligations.ExceptionCodesAndClasses :=
  fun _ _ _ _ => ⟨rfl, rfl, rfl, rfl, rfl, rfl, rfl, rfl⟩

/-- A decoded command adds nothing to the fault log: its instruction is well formed, so no branch of it raises a fault. -/
theorem step_faults_of_operation {s t : State} {c : Command} {rest : List Command} {i : Instr}
    (hp : s.pending = c :: rest) (hd : decode c.word = .operation i) (hstep : step s = .next t) : t.faults = s.faults := by
  obtain ⟨-, hw⟩ := isWordOf_of_decode hd
  obtain ⟨u, hu, hstays⟩ := exec_staysWithin hw s
  rw [step_of_operation hp hd, hu] at hstep
  cases hstep
  exact hstays.faults

/-- Settles O50: a decoded command stays within its block and out of the fault log; a rejected word ends as its fault. -/
theorem faultLogGrowsOnlyByRejectedWords : Obligations.FaultLogGrowsOnlyByRejectedWords := by
  intro s t c rest hp hstep
  refine ⟨fun i hd => step_faults_of_operation hp hd hstep, fun hd => ?illegal, fun hd => ?contract⟩
  case illegal =>
    rw [step_of_illegalCommand hp hd] at hstep
    cases hstep
    exact endedByFault_faults ..
  case contract =>
    rw [step_of_contractViolation hp hd] at hstep
    cases hstep
    exact endedByFault_faults ..

/-! ### A missing port outranks the transport (R216) -/

/-- Settles O56: the three commands take their operands before any transaction, whatever the transport. -/
theorem missingPortOutranksTransport : Obligations.MissingPortOutranksTransport := by
  refine fun s => ⟨?timeSet, fun m hm hmissing => ?alarm1Set, fun m hm hmissing => ?alarm2Set⟩
  case timeSet => exact (timestampChecked_withOperands s _).1
  case alarm1Set =>
    rw [exec_alarm1Set s hm]
    exact (alarmPortsChecked_withOperands s _).1 hmissing
  case alarm2Set =>
    rw [exec_alarm2Set s hm]
    exact (alarmPortsChecked_withOperands s _).1 hmissing

end Sys2Proof.Machine
end

section
/-! PROOFS of the family 70_reset_and_hazards.md: the start of a run, and the commands that need a transport where there is
none. -/

namespace Sys2Proof.Machine

/-! ### The start of a run (R240) -/

/-- Settles O45: each clause is a field of `State.reset`. -/
theorem runStartsEmpty : Obligations.RunStartsEmpty := ⟨rfl, rfl, rfl, rfl⟩

/-- Settles O46: the empty image is in canonical form, the empty outcome list gives the empty fault log, and the clauses on
entries have none to speak of. -/
theorem invAtReset : Obligations.InvAtReset where
  image_wf := by decide
  one_outcome_a_command := rfl
  results_in_range := fun _ ho => absurd ho List.not_mem_nil
  fault_log := rfl
  transactions_in_table := fun _ hr => absurd hr List.not_mem_nil
  transactions_of_earlier_commands := fun _ hr => absurd hr List.not_mem_nil
  history_in_command_order := List.Pairwise.nil

/-! ### A first transaction that fails (R49, R214) -/

/-- The command's outcome is TRANSPORT_FAILURE of its first transaction, at register address `a`. -/
def FailsAtOnce (s : State) (a : Byte) (out : Host.Outcome State Fault Refusal) : Prop :=
  ∃ u, out = .next u ∧ u.outcomes = s.outcomes ++ [.exception (.transportFailure 0 a)]

section FailsAtOnce
variable {s : State} {a : Byte} {out : Host.Outcome State Fault Refusal}

theorem GetByOneRead.failsAtOnce {n : Nat} {dec : List Byte → Result} (h : GetByOneRead s a n dec out)
    (hc : s.completes = false) : FailsAtOnce s a out :=
  ⟨_, h.2 hc, rfl⟩

theorem SetByOneWrite.failsAtOnce {bytes : List Byte} (h : SetByOneWrite s a bytes out) (hc : s.completes = false) :
    FailsAtOnce s a out := by
  obtain ⟨_, hout, -⟩ := h.2 hc
  exact ⟨_, hout, rfl⟩

/-- The first register's write is number 0, and no write comes before it. -/
theorem SetByRegisterWrites.failsAtOnce {bytes : List Byte} (h : SetByRegisterWrites s a bytes out)
    (hb : 0 < bytes.length) (hc : s.completes = false) : FailsAtOnce s a out := by
  obtain ⟨_, _, hout, -⟩ := h.2 0 hb (fun _ hj => absurd hj (Nat.not_lt_zero _)) ((completesAt_zero s).trans hc)
  rw [addr_zero] at hout
  exact ⟨_, hout, rfl⟩

/-- Coalesced or not, the first write is at the block's base address. -/
theorem writeBlock_failsAtOnce (a : Byte) {bytes : List Byte} (hb : 0 < bytes.length) (hl : bytes.length ≤ 256)
    (hc : s.completes = false) : FailsAtOnce s a (.next (endSet (writeBlock a bytes s))) := by
  obtain ⟨heach, honce⟩ := writeBlock_spec a bytes s hl
  cases hcoalesce : s.coalesce with
  | false => exact (heach hcoalesce).failsAtOnce hb hc
  | true => exact (honce hcoalesce).failsAtOnce hc

end FailsAtOnce

/-! ### No transport (R242) -/

theorem completes_of_absent {s : State} (ht : s.transport = .absent) : s.completes = false := by
  simp only [State.completes, State.scripted, ht]

/-- Settles O44: no transaction completes, and each of the commands reports its first one that does not. -/
theorem absentTransportFailsAtOnce : Obligations.AbsentTransportFailsAtOnce := by
  intro s ht
  have hc : s.completes = false := completes_of_absent ht
  refine ⟨hc, (exec_timeGet s).failsAtOnce hc, (exec_tempGet s).failsAtOnce hc,
    fun _ hts => (exec_timeSet hts).failsAtOnce hc, fun m mi h d hmi hh hd => ⟨fun hm => ?alarm1Set, fun hm => ?alarm2Set⟩⟩
  case alarm1Set =>
    rw [exec_alarm1Set s hm, alarmOperands_supplied hmi hh hd, withOperands_ok]
    exact writeBlock_failsAtOnce Config.a1Base (by simp) (by simp) hc
  case alarm2Set =>
    rw [exec_alarm2Set s hm, alarmOperands_supplied hmi hh hd, withOperands_ok]
    exact writeBlock_failsAtOnce Config.a2Base (by simp) (by simp) hc

end Sys2Proof.Machine
end
